-- ==== Sys2Proof/Word.lean ====
section
/-! DEFINITION. The widths the spec treats as bits: words and bytes (R8), command words (R80) and sequencer
words (R86). -/

namespace Sys2Proof

/-- A 32-bit word, an unsigned integer in `0 .. 2^32 - 1` (R8). -/
abbrev Word := BitVec 32

/-- A byte (R11). -/
abbrev Byte := BitVec 8

/-- A command word `cmd_word[67:0]` (R80). -/
abbrev CmdWord := BitVec 68

/-- A sequencer word `sw[9:0]` (R86). -/
abbrev SeqWord := BitVec 10

end Sys2Proof
end

