-- ==== Sys2Proof/Config.lean ====
section
/-! DEFINITION. What is fixed for the machine (R6, R7).  The two parameters the spec leaves OPEN, `UNROLL` and
`RESET_FORM`, are not here: nothing observable and no rule depends on them (R7, 92_eei_decisions.md).  The model has no
free value: the one open value a host can look at, the digest port while `digest_valid = 0`, is no value at all
(`State.digest`, log entry 8). -/

namespace Sys2Proof.Config

/-- The first message length, in bytes, that is rejected (R6, R28, R193, R231). -/
abbrev sizeLimit : Nat := 2 ^ 61

end Sys2Proof.Config
end

