-- ==== Sys2Proof/Machine/State.lean ====
section
/-! DEFINITION. The complete state of one core instance (R20), the host's pending actions beside it (log entry 3), the reasons
a meaning can stop, and the state right after reset (R261). -/

namespace Sys2Proof.Machine

/-- The state of the sequencer (R31).  Codes 9 to 15 are unrepresentable, as U5 asks (log entry 12). -/
inductive Phase where
  | idle | fill | sched | init | rounds | fold | emit | done | error
  deriving DecidableEq, Repr

/-- The contents of the status register `err` (R33, R230).  `alloc` is reserved and never produced (R232). -/
inductive Err where
  | none | inputTooLarge | alloc | badCmd
  deriving DecidableEq, Repr

/-- The eight working variables (R24). -/
structure WorkVars where
  a : Word
  b : Word
  c : Word
  d : Word
  e : Word
  f : Word
  g : Word
  h : Word
  deriving DecidableEq, Repr

/-- One action of the host at the core's pins (R191, R205, R260; log entry 3). -/
inductive HostEvent where
  /-- `cmd_valid = 0` during one step of the core: the host pauses (R205). -/
  | idle
  /-- `cmd_valid = 1` with this word during one step only, then withdrawn, accepted or not (R191, U8). -/
  | offer (cw : CmdWord)
  /-- `cmd_valid = 1` with this word, held until it is accepted (R191, R204). -/
  | hold (cw : CmdWord)
  /-- The reset event (R260). -/
  | reset
  deriving DecidableEq, Repr

/-- Why the machine model stops. -/
inductive Fault where
  /-- Raised by the meaning of a micro-operation (PADBYTE to EMIT) asked for in a state outside the `require` clause of its
  rule, or with an operand other than the round counter: the spec gives it no effect there, and the sequencer never performs
  it there.  `step` never raises it.  Safe (log entry 6). -/
  | notEnabled (mnemonic : String)
  deriving DecidableEq, Repr

/-- Why an instruction has no meaning. -/
inductive Refusal where
  /-- Raised by `exec` for an instruction that has no meaning yet; no arm does so.  Safe. -/
  | notModelled (mnemonic : String)
  deriving DecidableEq, Repr

/-- The complete state of one core instance (R20), and the host's pending actions (log entry 3). -/
structure State where
  /-- Hash state `H[0..7]` (R23). -/
  H : Vector Word 8
  /-- Working variables `a .. h` (R24). -/
  wv : WorkVars
  /-- Message schedule `W[0..63]` (R25). -/
  W : Vector Word 64
  /-- Block buffer `B[0..63]` (R26). -/
  B : Vector Byte 64
  /-- Digest register `D[0..31]` (R27). -/
  D : Vector Byte 32
  /-- Message length in bytes (R28). -/
  size : BitVec 61
  /-- Byte counter (R29). -/
  p : BitVec 62
  /-- Round counter (R30). -/
  t : BitVec 6
  /-- State of the sequencer (R31). -/
  phase : Phase
  /-- Status register (R33). -/
  err : Err
  /-- Status flag `digest_valid` (R32). -/
  digestValid : Bool
  /-- What the host does next, oldest first; when the list is empty the host presents nothing (log entries 3, 4). -/
  host : List HostEvent
  deriving DecidableEq, Repr

/-- The machine right after reset (R261): `phase`, `t`, `err` and `digest_valid` as stated, the registers the spec gives no
value at zero (DESIGN CHOICE, log entry 1, unsafe), and a host that presents nothing (log entry 4). -/
def State.reset : State where
  H := Vector.replicate 8 0#32
  wv := ⟨0#32, 0#32, 0#32, 0#32, 0#32, 0#32, 0#32, 0#32⟩
  W := Vector.replicate 64 0#32
  B := Vector.replicate 64 0#8
  D := Vector.replicate 32 0#8
  size := 0#61
  p := 0#62
  t := 0#6
  phase := .idle
  err := .none
  digestValid := false
  host := []

end Sys2Proof.Machine
end

