-- ==== Sys2Proof/Machine/Flags.lean ====
section
/-! DEFINITION. The status outputs, functions of the state that hold none of their own (R20, R32 to R34).  The core has no
condition codes (R40): no instruction computes a carry, zero, negative or overflow flag. -/

namespace Sys2Proof.Machine

/-- The code of a phase in `sw[9:6]` (R31). -/
def Phase.code : Phase → BitVec 4
  | .idle => 0#4
  | .fill => 1#4
  | .sched => 2#4
  | .init => 3#4
  | .rounds => 4#4
  | .fold => 5#4
  | .emit => 6#4
  | .done => 7#4
  | .error => 8#4

/-- The code of `err[1:0]` (R87, R230). -/
def Err.code : Err → BitVec 2
  | .none => 0b00#2
  | .inputTooLarge => 0b01#2
  | .alloc => 0b10#2
  | .badCmd => 0b11#2

/-- In FILL, the next byte is the padder's and not the host's: `p >= size` (R29). -/
def State.padding (s : State) : Bool := decide (s.size.toNat ≤ s.p.toNat)

/-- The output `cmd_ready` (R34). -/
def State.cmdReady (s : State) : Bool :=
  match s.phase with
  | .idle | .done | .error => true
  | .fill => !s.padding
  | .sched | .init | .rounds | .fold | .emit => false

/-- The output `busy` (R34). -/
def State.busy (s : State) : Bool :=
  match s.phase with
  | .fill | .sched | .init | .rounds | .fold | .emit => true
  | .idle | .done | .error => false

/-- The output `err[1:0]` (R33). -/
def State.errOut (s : State) : BitVec 2 := s.err.code

/-- The bytes of `D` as one number, `D[0]` most significant: `D[j]` is bits `[255 - 8j : 248 - 8j]` (R32). -/
def digestWord (D : Vector Byte 32) : BitVec 256 :=
  D.toList.foldl (fun acc byte => (acc <<< 8) ||| byte.setWidth 256) 0#256

/-- The output `digest[255:0]`: no value while `digest_valid = 0` (R32, U3; DESIGN CHOICE, log entry 8, safe). -/
def State.digest (s : State) : Option (BitVec 256) :=
  if s.digestValid then some (digestWord s.D) else none

/-- `sw = phase ‖ t` (R86). -/
def State.seqWord (s : State) : SeqWord := s.phase.code ++ s.t

end Sys2Proof.Machine
end

