-- ==== Sys2Proof/Machine/Operands.lean ====
section
/-! DEFINITION. The functions the instructions compute their operands and results with: bitwise primitives (R10), byte order
(R11), the mixing functions of the schedule (R130, R131) and of the rounds (R150 to R153), and the padder's quantities and
byte function (R110, R112). -/

namespace Sys2Proof.Machine

/-- `x >> n`, the logical right shift of a word (R10). -/
def shr (x : Word) (n : Nat) : Word := x >>> n

/-- Right rotation within 32 bits, for `0 < n < 32` (R10). -/
def rotr (x : Word) (n : Nat) : Word := (x >>> n) ||| (x <<< (32 - n))

/-- Four bytes as one word, the first most significant (R11). -/
def be32 (b0 b1 b2 b3 : Byte) : Word := b0 ++ b1 ++ b2 ++ b3

/-- σ0 of the schedule (R130). -/
def sigma0 (x : Word) : Word := rotr x 7 ^^^ rotr x 18 ^^^ shr x 3

/-- σ1 of the schedule (R131). -/
def sigma1 (x : Word) : Word := rotr x 17 ^^^ rotr x 19 ^^^ shr x 10

/-- "Choose" (R150). -/
def ch (x y z : Word) : Word := (x &&& y) ^^^ (~~~x &&& z)

/-- "Majority" (R151). -/
def maj (x y z : Word) : Word := (x &&& y) ^^^ (x &&& z) ^^^ (y &&& z)

/-- Σ0 of the rounds (R152). -/
def bigSigma0 (x : Word) : Word := rotr x 2 ^^^ rotr x 13 ^^^ rotr x 22

/-- Σ1 of the rounds (R153). -/
def bigSigma1 (x : Word) : Word := rotr x 6 ^^^ rotr x 11 ^^^ rotr x 25

/-- `l = 8 * size`, formed as `size ‖ 000` (R110, R121). -/
def lenBits (size : BitVec 61) : BitVec 64 := size ++ 0#3

/-- `Z`, the number of zero padding bytes: `(55 - size) mod 64` with the mathematical modulo (R110). -/
def padZ (size : Nat) : Nat := ((55 - (size : Int)) % 64).toNat

/-- `P`, the length of the padded message in bytes (R110). -/
def padP (size : Nat) : Nat := size + 1 + padZ size + 8

/-- The byte the padder produces at index `j` of the padded message, for `size <= j < P` (R112).  No run asks for another
index (R116, log entry 13). -/
def padByte (j : Nat) (size : BitVec 61) : Byte :=
  if j = size.toNat then 0x80#8
  else if j < padP size.toNat - 8 then 0x00#8
  else (lenBits size >>> (8 * (padP size.toNat - 1 - j))).setWidth 8

end Sys2Proof.Machine
end

