-- ==== Sys2Proof/Machine/Ops.lean ====
section
/-! DEFINITION. The operations the meanings share: big-endian access to the byte arrays (R11), error entry (R235, the core's
only exception entry) and the leaving of it (R192, R237), placing a byte in the block buffer (R116, R194), the reset event
(R260), and the command port (R191). -/

namespace Sys2Proof.Machine

/-- `MemRead(S, addr, 4)` on the arrays `B` and `D`: `S[addr]` is the most significant byte (R11). -/
def memRead4 {n : Nat} (S : Vector Byte n) (addr : Nat) (_h : addr + 3 < n) : Word :=
  be32 S[addr] S[addr + 1] S[addr + 2] S[addr + 3]

/-- `MemWrite(S, addr, 4, v)`: the most significant byte of `v` goes to `S[addr]` (R11). -/
def memWrite4 {n : Nat} (S : Vector Byte n) (addr : Nat) (v : Word) (_h : addr + 3 < n) : Vector Byte n :=
  (((S.set addr (v.extractLsb' 24 8)).set (addr + 1) (v.extractLsb' 16 8)).set (addr + 2) (v.extractLsb' 8 8)).set
    (addr + 3) (v.extractLsb' 0 8)

/-- `raise E` (R235): the whole effect of the offending command.  Nothing is saved and there is no handler (R246). -/
def State.raise (s : State) (e : Err) : State :=
  { s with err := e, digestValid := false, phase := .error }

/-- A legal START (R192).  It is also the only return from an error (R237): `err` becomes NONE and nothing is restored. -/
def State.beginMessage (s : State) (size : BitVec 61) : State :=
  { s with
    size := size, p := 0#62, t := 0#6, H := IV, err := .none, digestValid := false, phase := .fill }

/-- Place the next byte of the padded message in the block buffer, shared by DATA (R194) and PADBYTE (R116): the buffer is
full, and is scheduled next, when `B[63]` was just written. -/
def State.placeByte (s : State) (byte : Byte) : State :=
  { s with
    B := s.B.set (s.p.toNat % 64) byte (Nat.mod_lt _ (by decide)),
    p := s.p + 1#62,
    phase := if (s.p.toNat + 1) % 64 = 0 then .sched else s.phase }

/-- The reset event (R260): it writes four control registers and nothing else (log entry 2). -/
def State.applyReset (s : State) : State :=
  { s with phase := .idle, t := 0#6, err := .none, digestValid := false }

/-- What a presented command does to the state: its effect where the command port accepts it (`cmd_ready = 1`), nothing where
it does not (R68, R191; log entry 5). -/
def atPort (s accepted : State) : Host.Outcome State Fault Refusal :=
  .next (if s.cmdReady then accepted else s)

/-- What a micro-operation does: its effect where its `require` clause holds (log entry 6). -/
def whenEnabled (enabled : Bool) (mnemonic : String) (effect : State) : Host.Outcome State Fault Refusal :=
  if enabled then .next effect else .fault (.notEnabled mnemonic)

end Sys2Proof.Machine
end

