-- ==== Sys2Proof/Machine/Commands.lean ====
section
/-! DEFINITION. The host commands START and DATA and the class ILLEGAL (45_sequencer_and_host_commands.md R192 to R198).  The
checks stand in the order of R236: the phase, the decode class, the protocol, the size. -/

namespace Sys2Proof.Machine

/-- An accepted START: BAD_CMD in FILL, whatever the size (R195); elsewhere INPUT_TOO_LARGE (R193) or the beginning of a
message (R192). -/
def acceptStart (size : BitVec 64) (s : State) : State :=
  if s.phase = .fill then s.raise .badCmd
  else if size.toNat < Config.sizeLimit then s.beginMessage (size.extractLsb' 0 61)
  else s.raise .inputTooLarge

/-- An accepted DATA: discarded in ERROR (R196), stored in FILL (R194), BAD_CMD elsewhere (R195). -/
def acceptData (byte : Byte) (s : State) : State :=
  if s.phase = .error then s
  else if s.phase = .fill then s.placeByte byte
  else s.raise .badCmd

/-- An accepted ILLEGAL word: discarded in ERROR (R196), BAD_CMD elsewhere (R195). -/
def acceptIllegal (s : State) : State :=
  if s.phase = .error then s else s.raise .badCmd

/-- START (R192, R193, R195). -/
def execStart (size : BitVec 64) (s : State) : Host.Outcome State Fault Refusal :=
  atPort s (acceptStart size s)

/-- DATA (R194, R195, R196). -/
def execData (byte : Byte) (s : State) : Host.Outcome State Fault Refusal :=
  atPort s (acceptData byte s)

/-- ILLEGAL, `op = 2` with `arg[63:8]` not zero (R195, R196). -/
def execIllegalData (_arg : BitVec 64) (s : State) : Host.Outcome State Fault Refusal :=
  atPort s (acceptIllegal s)

/-- ILLEGAL, `op = 0` (R195, R196). -/
def execIllegalOp0 (_arg : BitVec 64) (s : State) : Host.Outcome State Fault Refusal :=
  atPort s (acceptIllegal s)

/-- ILLEGAL, `op = 3` (R195, R196). -/
def execIllegalOp3 (_arg : BitVec 64) (s : State) : Host.Outcome State Fault Refusal :=
  atPort s (acceptIllegal s)

/-- ILLEGAL, `op = 4 .. 7` (R195, R196). -/
def execIllegalOp4to7 (_op10 : BitVec 2) (_arg : BitVec 64) (s : State) : Host.Outcome State Fault Refusal :=
  atPort s (acceptIllegal s)

/-- ILLEGAL, `op = 8 .. F` (R195, R196). -/
def execIllegalOp8toF (_op20 : BitVec 3) (_arg : BitVec 64) (s : State) : Host.Outcome State Fault Refusal :=
  atPort s (acceptIllegal s)

end Sys2Proof.Machine
end

