-- ==== Sys2Proof/Machine/Compressor.lean ====
section
/-! DEFINITION. The round compressor's micro-operations (43_compressor.md). -/

namespace Sys2Proof.Machine

/-- `wv[0] = a, .., wv[7] = h` loaded from the hash state (R24, R154). -/
def WorkVars.ofHash (H : Vector Word 8) : WorkVars := ⟨H[0], H[1], H[2], H[3], H[4], H[5], H[6], H[7]⟩

/-- The map `Round` of one round stage with its side inputs `K[t]` and `W[t]` (R155, R160): every right side uses the old
values. -/
def roundStage (v : WorkVars) (k w : Word) : WorkVars :=
  let T1 := v.h + bigSigma1 v.e + ch v.e v.f v.g + k + w
  let T2 := bigSigma0 v.a + maj v.a v.b v.c
  { a := T1 + T2, b := v.a, c := v.b, d := v.c, e := v.d + T1, f := v.e, g := v.f, h := v.g }

/-- The working variables added into the hash state, word by word modulo 2^32 (R156). -/
def addVars (H : Vector Word 8) (v : WorkVars) : Vector Word 8 :=
  #v[H[0] + v.a, H[1] + v.b, H[2] + v.c, H[3] + v.d, H[4] + v.e, H[5] + v.f, H[6] + v.g, H[7] + v.h]

/-- The effect of INITWV (R154). -/
def State.loadVars (s : State) : State := { s with wv := WorkVars.ofHash s.H, phase := .rounds }

/-- The effect of ROUND t (R155). -/
def State.mixRound (s : State) (t : BitVec 6) : State :=
  { s with
    wv := roundStage s.wv (K t) s.W[t.toNat],
    t := if t = 63#6 then 0#6 else t + 1#6,
    phase := if t = 63#6 then .fold else s.phase }

/-- The effect of FOLD (R156). -/
def State.foldVars (s : State) : State :=
  { s with
    H := addVars s.H s.wv,
    phase := if s.p.toNat = padP s.size.toNat then .emit else .fill }

/-- INITWV: load the working variables from the hash state (R154). -/
def execInitwv (s : State) : Host.Outcome State Fault Refusal :=
  whenEnabled (decide (s.phase = .init)) "INITWV" s.loadVars

/-- ROUND t: one round of mixing (R155). -/
def execRound (t : BitVec 6) (s : State) : Host.Outcome State Fault Refusal :=
  whenEnabled (decide (s.phase = .rounds ∧ s.t = t)) "ROUND" (s.mixRound t)

/-- FOLD: add the working variables into the hash state, the end of a block (R156). -/
def execFold (s : State) : Host.Outcome State Fault Refusal :=
  whenEnabled (decide (s.phase = .fold)) "FOLD" s.foldVars

end Sys2Proof.Machine
end

