-- ==== Sys2Proof/Machine/Digest.lean ====
section
/-! DEFINITION. The digest assembler's micro-operation (44_digest_assembler.md). -/

namespace Sys2Proof.Machine

/-- `MemWrite(D, 4*i, 4, H[i])` for `i = 0 .. 7` (R180). -/
def writeDigest (D : Vector Byte 32) (H : Vector Word 8) : Vector Byte 32 :=
  let D := memWrite4 D 0 H[0] (by decide)
  let D := memWrite4 D 4 H[1] (by decide)
  let D := memWrite4 D 8 H[2] (by decide)
  let D := memWrite4 D 12 H[3] (by decide)
  let D := memWrite4 D 16 H[4] (by decide)
  let D := memWrite4 D 20 H[5] (by decide)
  let D := memWrite4 D 24 H[6] (by decide)
  memWrite4 D 28 H[7] (by decide)

/-- The effect of EMIT (R180). -/
def State.writeOut (s : State) : State :=
  { s with D := writeDigest s.D s.H, digestValid := true, phase := .done }

/-- EMIT: write the final hash state to the digest register and make it visible (R180). -/
def execEmit (s : State) : Host.Outcome State Fault Refusal :=
  whenEnabled (decide (s.phase = .emit)) "EMIT" s.writeOut

end Sys2Proof.Machine
end

