-- ==== Sys2Proof/Machine/Padder.lean ====
section
/-! DEFINITION. The padder's micro-operation (41_padder.md). -/

namespace Sys2Proof.Machine

/-- PADBYTE: place the next padding byte in the block buffer (R116). -/
def execPadbyte (s : State) : Host.Outcome State Fault Refusal :=
  whenEnabled (decide (s.phase = .fill) && s.padding) "PADBYTE" (s.placeByte (padByte s.p.toNat s.size))

end Sys2Proof.Machine
end

