-- ==== Sys2Proof/Machine/Schedule.lean ====
section
/-! DEFINITION. The message-schedule expander's micro-operations (42_schedule_expander.md). -/

namespace Sys2Proof.Machine

/-- The recurrence of the schedule at `t >= 16` (R133); below 16 it is not used. -/
def expandWord (W : Vector Word 64) (t : BitVec 6) : Word :=
  sigma1 W[(t - 2).toNat] + W[(t - 7).toNat] + sigma0 W[(t - 15).toNat] + W[(t - 16).toNat]

/-- The effect of EXPAND t (R133). -/
def State.expand (s : State) (t : BitVec 6) : State :=
  { s with
    W := s.W.set t.toNat (expandWord s.W t),
    t := if t = 63#6 then 0#6 else t + 1#6,
    phase := if t = 63#6 then .init else s.phase }

/-- The effect of LOADW t (R132). -/
def State.loadWord (s : State) (t : BitVec 4) : State :=
  { s with
    W := s.W.set t.toNat (memRead4 s.B (4 * t.toNat) (by omega)),
    t := s.t + 1#6 }

/-- LOADW t: load word `t` of the block, big-endian (R132). -/
def execLoadw (t : BitVec 4) (s : State) : Host.Outcome State Fault Refusal :=
  whenEnabled (decide (s.phase = .sched ∧ s.t = 0b00#2 ++ t)) "LOADW" (s.loadWord t)

/-- EXPAND t for `t = 16 + k` (R133). -/
def execExpandLow (k : BitVec 4) (s : State) : Host.Outcome State Fault Refusal :=
  whenEnabled (decide (s.phase = .sched ∧ s.t = 0b01#2 ++ k)) "EXPAND" (s.expand s.t)

/-- EXPAND t for `t = 32 + k` (R133). -/
def execExpandHigh (k : BitVec 5) (s : State) : Host.Outcome State Fault Refusal :=
  whenEnabled (decide (s.phase = .sched ∧ s.t = 0b1#1 ++ k)) "EXPAND" (s.expand s.t)

end Sys2Proof.Machine
end

