-- ==== Sys2Proof/Syntax.lean ====
section
/-! DEFINITION. The instructions, one constructor per row of spec/opcode_table.json (log entry 10): the host commands START
and DATA, the five rows of the class ILLEGAL, and the sequencer's micro-operations (EXPAND has two rows). -/

namespace Sys2Proof

/-- An instruction: a command the host presents (format CMD, R80) or a micro-operation the sequencer performs (format SEQ,
R86). -/
inductive Instr where
  /-- START size (R81): `op = 0x1`, all 64 bits of `arg` are the size. -/
  | start (size : BitVec 64)
  /-- DATA byte (R82): `op = 0x2`, `arg[63:8] = 0`. -/
  | data (byte : Byte)
  /-- ILLEGAL (R84): `op = 0x2` with `arg[63:8]` not zero. -/
  | illegalData (arg : BitVec 64)
  /-- ILLEGAL (R84): `op = 0x0`, any `arg`. -/
  | illegalOp0 (arg : BitVec 64)
  /-- ILLEGAL (R84): `op = 0x3`, any `arg`. -/
  | illegalOp3 (arg : BitVec 64)
  /-- ILLEGAL (R84): `op = 0x4 .. 0x7`, whose low two bits are `op10`, any `arg`. -/
  | illegalOp4to7 (op10 : BitVec 2) (arg : BitVec 64)
  /-- ILLEGAL (R84): `op = 0x8 .. 0xF`, whose low three bits are `op20`, any `arg`. -/
  | illegalOp8toF (op20 : BitVec 3) (arg : BitVec 64)
  /-- PADBYTE (R116). -/
  | padbyte
  /-- LOADW t (R132), `t = 0 .. 15`. -/
  | loadw (t : BitVec 4)
  /-- EXPAND t (R133), `t = 16 + k`, `k = 0 .. 15`. -/
  | expandLow (k : BitVec 4)
  /-- EXPAND t (R133), `t = 32 + k`, `k = 0 .. 31`. -/
  | expandHigh (k : BitVec 5)
  /-- INITWV (R154). -/
  | initwv
  /-- ROUND t (R155), `t = 0 .. 63`. -/
  | round (t : BitVec 6)
  /-- FOLD (R156). -/
  | fold
  /-- EMIT (R180). -/
  | emit
  deriving DecidableEq, Repr

/-- The host presents it at the command port (format CMD, R80); every other instruction is the sequencer's (format SEQ). -/
def Instr.isCommand : Instr → Bool
  | .start _ | .data _ => true
  | .illegalData _ | .illegalOp0 _ | .illegalOp3 _ | .illegalOp4to7 _ _ | .illegalOp8toF _ _ => true
  | .padbyte | .loadw _ | .expandLow _ | .expandHigh _ | .initwv | .round _ | .fold | .emit => false

/-- It is of the decode class ILLEGAL (R84). -/
def Instr.isIllegal : Instr → Bool
  | .illegalData _ | .illegalOp0 _ | .illegalOp3 _ | .illegalOp4to7 _ _ | .illegalOp8toF _ _ => true
  | .start _ | .data _ => false
  | .padbyte | .loadw _ | .expandLow _ | .expandHigh _ | .initwv | .round _ | .fold | .emit => false

/-- An instruction as bits, in its format: a 68-bit command word (R80) or a 10-bit sequencer word (R86). -/
inductive InstrWord where
  | cmd (cw : CmdWord)
  | seq (sw : SeqWord)
  deriving DecidableEq, Repr

end Sys2Proof
end

