-- ==== Sys2Proof/Machine/Dispatch.lean ====
section
/-! DEFINITION. One arm per instruction: each calls its own meaning. -/

namespace Sys2Proof.Machine

def exec (i : Instr) (s : State) : Host.Outcome State Fault Refusal :=
  match i with
  | .start size => Sys2Proof.Machine.execStart size s
  | .data byte => Sys2Proof.Machine.execData byte s
  | .illegalData arg => Sys2Proof.Machine.execIllegalData arg s
  | .illegalOp0 arg => Sys2Proof.Machine.execIllegalOp0 arg s
  | .illegalOp3 arg => Sys2Proof.Machine.execIllegalOp3 arg s
  | .illegalOp4to7 op10 arg => Sys2Proof.Machine.execIllegalOp4to7 op10 arg s
  | .illegalOp8toF op20 arg => Sys2Proof.Machine.execIllegalOp8toF op20 arg s
  | .padbyte => Sys2Proof.Machine.execPadbyte s
  | .loadw t => Sys2Proof.Machine.execLoadw t s
  | .expandLow k => Sys2Proof.Machine.execExpandLow k s
  | .expandHigh k => Sys2Proof.Machine.execExpandHigh k s
  | .initwv => Sys2Proof.Machine.execInitwv s
  | .round t => Sys2Proof.Machine.execRound t s
  | .fold => Sys2Proof.Machine.execFold s
  | .emit => Sys2Proof.Machine.execEmit s

end Sys2Proof.Machine
end

