-- ==== Sys2Proof/WellFormed.lean ====
section
/-! DEFINITION. Which terms of `Instr` are instructions.  Every field is exactly as wide as the field of its encoding, so one
check is left: the ILLEGAL row of `op = 2` is reached only where the DATA row before it does not match (R84, R88). -/

namespace Sys2Proof

/-- `illegalData arg` needs `arg[63:8]` not zero (R84); every other term is well formed. -/
def Instr.wf : Instr → Bool
  | .illegalData arg => arg.extractLsb' 8 56 != 0#56
  | .start _ => true
  | .data _ => true
  | .illegalOp0 _ => true
  | .illegalOp3 _ => true
  | .illegalOp4to7 _ _ => true
  | .illegalOp8toF _ _ => true
  | .padbyte => true
  | .loadw _ => true
  | .expandLow _ => true
  | .expandHigh _ => true
  | .initwv => true
  | .round _ => true
  | .fold => true
  | .emit => true

end Sys2Proof
end

