-- ==== Sys2Proof/Decode.lean ====
section
/-! DEFINITION. Decoding and encoding: command words (R80 to R84), sequencer words (R86), the opcode table's rows as masks and
patterns (R88), and the reading of a word numbered as spec/opcode_table.json numbers it. -/

namespace Sys2Proof

/-- Why a word is no instruction. -/
inductive DecodeError where
  /-- A sequencer word of IDLE, DONE or ERROR with `t = 0`: the core waits for a command and has no micro-operation (R86). -/
  | waitsForHost (sw : SeqWord)
  /-- A sequencer word that is unreachable: `phase` in 9 .. 15, or `t` not 0 outside SCHED and ROUNDS (R86). -/
  | unreachable (sw : SeqWord)
  deriving DecidableEq, Repr

/-- `op = cw[67:64]` (R80). -/
def cmdOp (cw : CmdWord) : BitVec 4 := cw.extractLsb' 64 4

/-- `arg = cw[63:0]` (R80). -/
def cmdArg (cw : CmdWord) : BitVec 64 := cw.extractLsb' 0 64

/-- The total decoder of command words (R84); the class ILLEGAL is split into the table's five rows. -/
def decodeCmd (cw : CmdWord) : Instr :=
  if cmdOp cw = 0x1#4 then .start (cmdArg cw)
  else if cmdOp cw = 0x2#4 then
    if (cmdArg cw).extractLsb' 8 56 = 0#56 then .data ((cmdArg cw).extractLsb' 0 8)
    else .illegalData (cmdArg cw)
  else if cmdOp cw = 0x0#4 then .illegalOp0 (cmdArg cw)
  else if cmdOp cw = 0x3#4 then .illegalOp3 (cmdArg cw)
  else if (cmdOp cw).extractLsb' 3 1 = 0#1 then .illegalOp4to7 ((cmdOp cw).extractLsb' 0 2) (cmdArg cw)
  else .illegalOp8toF ((cmdOp cw).extractLsb' 0 3) (cmdArg cw)

/-- `sw[9:6]` (R86). -/
def seqPhase (sw : SeqWord) : BitVec 4 := sw.extractLsb' 6 4

/-- `sw[5:0]` (R86). -/
def seqT (sw : SeqWord) : BitVec 6 := sw.extractLsb' 0 6

/-- The micro-operation of a sequencer word, by the patterns of R86.  PADBYTE's extra condition `p >= size` is no bit of the
word: the sequencer checks it (`Machine.microOp`). -/
def decodeSeq (sw : SeqWord) : Except DecodeError Instr :=
  if seqPhase sw = 2#4 then
    if (seqT sw).extractLsb' 4 2 = 0#2 then .ok (.loadw ((seqT sw).extractLsb' 0 4))
    else if (seqT sw).extractLsb' 4 2 = 1#2 then .ok (.expandLow ((seqT sw).extractLsb' 0 4))
    else .ok (.expandHigh ((seqT sw).extractLsb' 0 5))
  else if seqPhase sw = 4#4 then .ok (.round (seqT sw))
  else if seqT sw = 0#6 then
    if seqPhase sw = 1#4 then .ok .padbyte
    else if seqPhase sw = 3#4 then .ok .initwv
    else if seqPhase sw = 5#4 then .ok .fold
    else if seqPhase sw = 6#4 then .ok .emit
    else if seqPhase sw = 0#4 ∨ seqPhase sw = 7#4 ∨ seqPhase sw = 8#4 then .error (.waitsForHost sw)
    else .error (.unreachable sw)
  else .error (.unreachable sw)

/-- The decoder, total on both formats. -/
def decode : InstrWord → Except DecodeError Instr
  | .cmd cw => .ok (decodeCmd cw)
  | .seq sw => decodeSeq sw

/-- The word of an instruction (R81 to R84, R86). -/
def encode : Instr → InstrWord
  | .start size => .cmd (0x1#4 ++ size)
  | .data byte => .cmd (0x2#4 ++ byte.setWidth 64)
  | .illegalData arg => .cmd (0x2#4 ++ arg)
  | .illegalOp0 arg => .cmd (0x0#4 ++ arg)
  | .illegalOp3 arg => .cmd (0x3#4 ++ arg)
  | .illegalOp4to7 op10 arg => .cmd ((0b01#2 ++ op10) ++ arg)
  | .illegalOp8toF op20 arg => .cmd ((0b1#1 ++ op20) ++ arg)
  | .padbyte => .seq 0b0001000000#10
  | .loadw t => .seq (0b001000#6 ++ t)
  | .expandLow k => .seq (0b001001#6 ++ k)
  | .expandHigh k => .seq (0b00101#5 ++ k)
  | .initwv => .seq 0b0011000000#10
  | .round t => .seq (0b0100#4 ++ t)
  | .fold => .seq 0b0101000000#10
  | .emit => .seq 0b0110000000#10

/-- One row of the opcode table: a word of `n` bits belongs to the row where it agrees with `pattern` on the bits of
`mask` (R88). -/
structure OpcodeRow (n : Nat) where
  mnemonic : String
  pattern : BitVec n
  mask : BitVec n
  deriving DecidableEq, Repr

/-- The word agrees with the row. -/
def OpcodeRow.matches {n : Nat} (r : OpcodeRow n) (w : BitVec n) : Bool := w &&& r.mask == r.pattern

/-- The table's command rows, in its order: the first that matches wins (R88). -/
def cmdRows : List (OpcodeRow 68) :=
  [ ⟨"START", 0x10000000000000000#68, 0xF0000000000000000#68⟩,
    ⟨"DATA", 0x20000000000000000#68, 0xFFFFFFFFFFFFFFF00#68⟩,
    ⟨"ILLEGAL", 0x20000000000000000#68, 0xF0000000000000000#68⟩,
    ⟨"ILLEGAL", 0x00000000000000000#68, 0xF0000000000000000#68⟩,
    ⟨"ILLEGAL", 0x30000000000000000#68, 0xF0000000000000000#68⟩,
    ⟨"ILLEGAL", 0x40000000000000000#68, 0xC0000000000000000#68⟩,
    ⟨"ILLEGAL", 0x80000000000000000#68, 0x80000000000000000#68⟩ ]

/-- The table's sequencer rows, in its order (R86, R88). -/
def seqRows : List (OpcodeRow 10) :=
  [ ⟨"PADBYTE", 0b0001000000#10, 0b1111111111#10⟩,
    ⟨"LOADW", 0b0010000000#10, 0b1111110000#10⟩,
    ⟨"EXPAND", 0b0010010000#10, 0b1111110000#10⟩,
    ⟨"EXPAND", 0b0010100000#10, 0b1111100000#10⟩,
    ⟨"INITWV", 0b0011000000#10, 0b1111111111#10⟩,
    ⟨"ROUND", 0b0100000000#10, 0b1111000000#10⟩,
    ⟨"FOLD", 0b0101000000#10, 0b1111111111#10⟩,
    ⟨"EMIT", 0b0110000000#10, 0b1111111111#10⟩ ]

/-- The place of an instruction's row among the rows of its own format, from 0. -/
def Instr.rowIndex : Instr → Nat
  | .start _ => 0
  | .data _ => 1
  | .illegalData _ => 2
  | .illegalOp0 _ => 3
  | .illegalOp3 _ => 4
  | .illegalOp4to7 _ _ => 5
  | .illegalOp8toF _ _ => 6
  | .padbyte => 0
  | .loadw _ => 1
  | .expandLow _ => 2
  | .expandHigh _ => 3
  | .initwv => 4
  | .round _ => 5
  | .fold => 6
  | .emit => 7

/-- A word of `nbits` bits, numbered as spec/opcode_table.json numbers it, in its format: the table has rows of 68 bits (CMD)
and of 10 bits (SEQ), given in whole bytes as 72 and 16 (log entry 11).  A bit above the format's width makes it no word of
the hardware. -/
def tableWord (nbits w : Nat) : Option InstrWord :=
  if nbits ≤ 16 then
    if w < 2 ^ 10 then some (.seq (BitVec.ofNat 10 w)) else none
  else if w < 2 ^ 68 then some (.cmd (BitVec.ofNat 68 w)) else none

/-- The instruction the decoder reads from a word of the opcode table (`none` where it refuses). -/
def decodeTableWord (nbits w : Nat) : Option Instr :=
  match tableWord nbits w with
  | none => none
  | some iw => (decode iw).toOption

end Sys2Proof
end

