-- ==== Sys2Proof/Machine/Sequencer.lean ====
section
/-! DEFINITION. What happens next (45_sequencer_and_host_commands.md R190, R191, R197): the sequencer's choice of a
micro-operation, the host's next action, and the placing of one instruction where the next step runs it. -/

namespace Sys2Proof.Machine

/-- The micro-operation of phase SCHED: LOADW below 16, EXPAND from 16 on (R197, in the two rows of R86). -/
def schedOp (t : BitVec 6) : Instr :=
  if t.toNat < 16 then .loadw (t.extractLsb' 0 4)
  else if t.toNat < 32 then .expandLow (t.extractLsb' 0 4)
  else .expandHigh (t.extractLsb' 0 5)

/-- The enabled micro-operation, at most one in each state, by the table of R197 (log entry 7). -/
def microOp (s : State) : Option Instr :=
  match s.phase with
  | .idle | .done | .error => none
  | .fill => if s.padding then some .padbyte else none
  | .sched => some (schedOp s.t)
  | .init => some .initwv
  | .rounds => some (.round s.t)
  | .fold => some .fold
  | .emit => some .emit

/-- The command word the host presents in this step, if it presents one (R191). -/
def presented : List HostEvent → Option CmdWord
  | .offer cw :: _ => some cw
  | .hold cw :: _ => some cw
  | .idle :: _ => none
  | .reset :: _ => none
  | [] => none

/-- The host's actions after a step in which the core did not look at the port: a held command is still waiting (R191). -/
def hostWaits : List HostEvent → List HostEvent
  | .hold cw :: rest => .hold cw :: rest
  | .offer _ :: rest => rest
  | .idle :: rest => rest
  | .reset :: rest => rest
  | [] => []

/-- What a step does: the reset event or a pause settles the state, everything else runs one instruction from a state. -/
inductive Action where
  | settle (s : State)
  | run (i : Instr) (s : State)
  deriving DecidableEq, Repr

/-- Reset cannot be refused and excludes any other step (R260); an enabled micro-operation is taken (R190, R202); otherwise a
presented command is accepted (R191), and a core with nothing presented waits (log entry 16). -/
def nextAction (s : State) : Action :=
  match s.host with
  | .reset :: rest => .settle { s.applyReset with host := rest }
  | _ =>
    match microOp s with
    | some i => .run i { s with host := hostWaits s.host }
    | none =>
      match presented s.host with
      | some cw => .run (decodeCmd cw) { s with host := s.host.tail }
      | none => .settle { s with host := s.host.tail }

/-- The phase with this code (R31); 9 .. 15 are none. -/
def Phase.ofCode (c : BitVec 4) : Option Phase :=
  match c.toNat with
  | 0 => some .idle
  | 1 => some .fill
  | 2 => some .sched
  | 3 => some .init
  | 4 => some .rounds
  | 5 => some .fold
  | 6 => some .emit
  | 7 => some .done
  | 8 => some .error
  | _ => none

/-- `s` with a command word held at the port of a core that accepts it: a core that does not is put in IDLE (log entry 4). -/
def State.withCommand (s : State) (cw : CmdWord) : State :=
  { s with
    host := .hold cw :: s.host,
    phase := if s.cmdReady then s.phase else .idle }

/-- `s` with the sequencer in the state a sequencer word names: its phase and `t`, for PADBYTE a `p` that is not below `size`,
and a host that does nothing in the coming step (log entry 4). -/
def State.withSeqWord (s : State) (sw : SeqWord) : State :=
  match Phase.ofCode (seqPhase sw) with
  | some ph =>
    { s with
      host := .idle :: s.host,
      phase := ph,
      t := seqT sw,
      p := if ph = .fill ∧ s.p.toNat < s.size.toNat then s.size.setWidth 62 else s.p }
  | none => s

/-- `s` with the instruction of a word of the opcode table as the one its next step runs (log entry 4). -/
def State.placeTableWord (s : State) (nbits w : Nat) : State :=
  match tableWord nbits w with
  | some (.cmd cw) => s.withCommand cw
  | some (.seq sw) => s.withSeqWord sw
  | none => s

end Sys2Proof.Machine
end

