-- ==== Sys2Proof/Machine/Step.lean ====
section
/-! DEFINITION. One step of the core beside its host. -/

namespace Sys2Proof.Machine

/-- One atomic step (R12, R190): what `nextAction` says. -/
def step (s : State) : Host.Outcome State Fault Refusal :=
  match nextAction s with
  | .settle s' => .next s'
  | .run i s' => exec i s'

/-- `s` with one instruction placed where `step` runs it next (log entry 4). -/
def State.withFetchWord (s : State) (nbits w : Nat) : State := s.placeTableWord nbits w

end Sys2Proof.Machine
end

