-- ==== Sys2Proof/Machine/Program.lean ====
section
/-! DEFINITION. A host's program: the assembler's lines (R89, R90) as data, the words they stand for, and the host that
presents them in order, each held until it is accepted (R204).  The text form of a line is not modelled (log entry 17). -/

namespace Sys2Proof.Machine

/-- A line of the assembler (R89), or the pseudo-instruction HASH (R90). -/
inductive AsmLine where
  | start (size : BitVec 64)
  | data (byte : Byte)
  | word (cw : CmdWord)
  | hash (bytes : List Byte)
  deriving DecidableEq, Repr

/-- The word of `START <size>` (R89). -/
def startWord (size : BitVec 64) : CmdWord := 0x1#4 ++ size

/-- The word of `DATA <byte>` (R89). -/
def dataWord (byte : Byte) : CmdWord := 0x2#4 ++ byte.setWidth 64

/-- The words of one line: HASH is START with the number of bytes, then a DATA for each (R90).  START's operand is below 2^64
(R89), so the spec gives a HASH of 2^64 bytes or more no words; the number is then taken modulo 2^64 here (DESIGN CHOICE, log
entry 18). -/
def AsmLine.words : AsmLine → List CmdWord
  | .start size => [startWord size]
  | .data byte => [dataWord byte]
  | .word cw => [cw]
  | .hash bytes => startWord (BitVec.ofNat 64 bytes.length) :: bytes.map dataWord

/-- The host of a run: it presents the words of the lines in order, each held until it is accepted (R204). -/
def hostOf (lines : List AsmLine) : List HostEvent := (lines.flatMap AsmLine.words).map HostEvent.hold

end Sys2Proof.Machine
end

