-- ==== Sys2Proof/Machine/Reference.lean ====
section
/-! DEFINITION. What the components compute, as functions of their inputs and apart from any step: the padded message and its
blocks (R110, R111, R119), the schedule of a block (R134), the compressor (R157), the chain over the blocks (R158) and the
digest (R181).  No meaning calls these: statements compare the machine with them. -/

namespace Sys2Proof.Machine

/-- `byteBE(v, n, i)`: byte `i` of the `n`-byte big-endian form of `v`, byte 0 most significant (R11). -/
def byteBE (v n i : Nat) : Byte := BitVec.ofNat 8 (v / 2 ^ (8 * (n - 1 - i)))

/-- `k`, the number of zero padding bits: `(447 - l) mod 512` with the mathematical modulo (R110). -/
def padK (size : Nat) : Nat := ((447 - (8 * size : Int)) % 512).toNat

/-- `N`, the number of blocks (R110). -/
def padN (size : Nat) : Nat := padP size / 64

/-- `Pad(M)` (R111): the message, the terminator, the zero bytes, the bit length as a 64-bit big-endian integer. -/
def padMsg (M : List Byte) : List Byte :=
  M ++ [0x80#8] ++ List.replicate (padZ M.length) 0x00#8 ++ (List.range 8).map (byteBE (8 * M.length) 8)

/-- Block `i` of the padded message, `i = 1 .. N` (R119). -/
def blockOf (M : List Byte) (i : Nat) : Vector Byte 64 :=
  Vector.ofFn fun j : Fin 64 => (padMsg M).getD (64 * (i - 1) + j.val) 0#8

/-- The next word of a schedule whose first words are `S` (R134). -/
def scheduleNext (b : Vector Byte 64) (S : List Word) : Word :=
  if h : S.length < 16 then
    be32 b[4 * S.length] b[4 * S.length + 1] b[4 * S.length + 2] b[4 * S.length + 3]
  else
    sigma1 (S.getD (S.length - 2) 0#32) + S.getD (S.length - 7) 0#32 +
      sigma0 (S.getD (S.length - 15) 0#32) + S.getD (S.length - 16) 0#32

/-- The first `n` words of the schedule of a block (R134). -/
def schedulePrefix (b : Vector Byte 64) : Nat → List Word
  | 0 => []
  | n + 1 => schedulePrefix b n ++ [scheduleNext b (schedulePrefix b n)]

/-- `Schedule(b)` (R134). -/
def schedule (b : Vector Byte 64) : Vector Word 64 :=
  Vector.ofFn fun t : Fin 64 => (schedulePrefix b 64).getD t.val 0#32

/-- `v[t]` of R157: the working variables after the first `t` round stages, `t = 0 .. 64`. -/
def roundsUpTo (Hin : Vector Word 8) (S : Vector Word 64) : Nat → WorkVars
  | 0 => WorkVars.ofHash Hin
  | t + 1 => roundStage (roundsUpTo Hin S t) (K (BitVec.ofNat 6 t)) S[(BitVec.ofNat 6 t).toNat]

/-- `Compress(Hin, S)` (R157). -/
def compress (Hin : Vector Word 8) (S : Vector Word 64) : Vector Word 8 := addVars Hin (roundsUpTo Hin S 64)

/-- `H_i` of R158: the hash state after block `i`. -/
def hashAfter (M : List Byte) : Nat → Vector Word 8
  | 0 => IV
  | i + 1 => compress (hashAfter M i) (schedule (blockOf M (i + 1)))

/-- `Digest(Hf)` (R181). -/
def digestOf (Hf : Vector Word 8) : Vector Byte 32 :=
  Vector.ofFn fun k : Fin 32 => byteBE Hf[k.val / 4].toNat 4 (k.val % 4)

/-- What an invocation computes (R200). -/
def sha256 (M : List Byte) : Vector Byte 32 := digestOf (hashAfter M (padN M.length))

end Sys2Proof.Machine
end

