-- ==== Sys2Proof/Safety.lean ====
section
/-! DEFINITION. What a good state is: the invariants of the control registers and of the data registers, the agreement of two
states in their control, and the end of a run. -/

namespace Sys2Proof.Machine

/-- Where the byte counter may stand in each phase (R29, R116, R156): inside the padded message while the buffer is filled, at
a block boundary while a block is scheduled and compressed, at `P` once block `N` is folded. -/
abbrev State.Progress (s : State) : Prop :=
  match s.phase with
  | .idle | .error => True
  | .fill => s.p.toNat < padP s.size.toNat
  | .sched | .init | .rounds | .fold =>
    s.p.toNat % 64 = 0 ∧ 64 ≤ s.p.toNat ∧ s.p.toNat ≤ padP s.size.toNat
  | .emit | .done => s.p.toNat = padP s.size.toNat

/-- The control registers hold together: `t` is 0 outside SCHED and ROUNDS (R30), `err` is nonzero exactly in ERROR (R33) and
never ALLOC (R232), `digest_valid` is 1 exactly in DONE (R239), and the byte counter is where the phase says. -/
structure State.CtrlInv (s : State) : Prop where
  t_zero : s.phase ≠ .sched → s.phase ≠ .rounds → s.t = 0#6
  err_iff : s.err ≠ .none ↔ s.phase = .error
  not_alloc : s.err ≠ .alloc
  valid_iff : s.digestValid = true ↔ s.phase = .done
  progress : s.Progress

/-- The data registers hold what the components compute: in SCHED the words of the schedule written so far (R134), in ROUNDS
and FOLD the working variables after the rounds done so far (R157), in DONE the digest of the hash state (R181). -/
def State.DataInv (s : State) : Prop :=
  match s.phase with
  | .sched => ∀ i : Fin 64, i.val < s.t.toNat → s.W[i.val] = (schedule s.B)[i.val]
  | .init => s.W = schedule s.B
  | .rounds => s.W = schedule s.B ∧ s.wv = roundsUpTo s.H s.W s.t.toNat
  | .fold => s.W = schedule s.B ∧ s.wv = roundsUpTo s.H s.W 64
  | .done => s.D = digestOf s.H
  | .idle | .fill | .emit | .error => True

/-- Two host actions that are the same but for the byte of a DATA. -/
def HostEvent.SameButByte (e e' : HostEvent) : Prop :=
  e = e' ∨ ∃ x y : Byte, e = .hold (dataWord x) ∧ e' = .hold (dataWord y) ∨ e = .offer (dataWord x) ∧ e' = .offer (dataWord y)

/-- Two states that agree in everything the sequence of steps depends on (R269): the control registers are equal, and the
hosts' actions are the same one by one but for the bytes of any DATA among them. -/
structure State.SameControl (s s' : State) : Prop where
  size_eq : s.size = s'.size
  p_eq : s.p = s'.p
  t_eq : s.t = s'.t
  phase_eq : s.phase = s'.phase
  err_eq : s.err = s'.err
  valid_eq : s.digestValid = s'.digestValid
  host : List.Forall₂ HostEvent.SameButByte s.host s'.host

/-- The run has ended: every command has been accepted and no micro-operation is enabled (R204). -/
def State.ended (s : State) : Bool := s.host.isEmpty && (microOp s).isNone

end Sys2Proof.Machine
end

