-- ==== Sys2Proof/Certificates/Slice0/Obligations.lean ====
section
/-! DEFINITION. The statements for the provers, `Obligations.<Name> : Prop` each, about the instructions and the machine; none
is about a program.  Each docstring names the rules it formalises or rests on. -/

open Sys2Proof Sys2Proof.Machine

/-! ### Encoding -/

/-- Words written out from the spec's encodings decode to the instructions they stand for (R81, R82, R84, R86; the words of
95_test_vectors.md V17). -/
def Obligations.SpecWordsDecode : Prop :=
  decodeCmd 0x10000000000000003#68 = .start 3#64 ∧
  decodeCmd 0x1ffffffffffffffff#68 = .start 0xffffffffffffffff#64 ∧
  decodeCmd 0x20000000000000061#68 = .data 0x61#8 ∧
  decodeCmd 0x28000000000000061#68 = .illegalData 0x8000000000000061#64 ∧
  decodeCmd 0x00000000000000000#68 = .illegalOp0 0#64 ∧
  decodeCmd 0x30000000000000003#68 = .illegalOp3 3#64 ∧
  decodeCmd 0x60000000000000000#68 = .illegalOp4to7 2#2 0#64 ∧
  decodeCmd 0xfffffffffffffffff#68 = .illegalOp8toF 7#3 0xffffffffffffffff#64 ∧
  decodeSeq 0b0001000000#10 = .ok .padbyte ∧
  decodeSeq 0b0010001111#10 = .ok (.loadw 15#4) ∧
  decodeSeq 0b0010010000#10 = .ok (.expandLow 0#4) ∧
  decodeSeq 0b0010111111#10 = .ok (.expandHigh 31#5) ∧
  decodeSeq 0b0011000000#10 = .ok .initwv ∧
  decodeSeq 0b0100111111#10 = .ok (.round 63#6) ∧
  decodeSeq 0b0101000000#10 = .ok .fold ∧
  decodeSeq 0b0110000000#10 = .ok .emit ∧
  decodeSeq 0b0111000000#10 = .error (.waitsForHost 0b0111000000#10) ∧
  decodeSeq 0b1001000000#10 = .error (.unreachable 0b1001000000#10)

/-- Decoding the word of any well-formed instruction gives it back, whatever its operands (R84, R86). -/
def Obligations.DecodeOfEncodeGivesInstruction : Prop :=
  ∀ i : Instr, i.wf = true → decode (encode i) = .ok i

/-- Every word that decodes is the word of the instruction it decodes to, and that instruction is well formed (R84). -/
def Obligations.EncodeOfDecodeGivesWord : Prop :=
  ∀ (iw : InstrWord) (i : Instr), decode iw = .ok i → encode i = iw ∧ i.wf = true

/-- The decoder agrees with the opcode table: the first row that matches a command word is the row of the instruction it
decodes to, and a sequencer word matches a row exactly when it decodes (R88). -/
def Obligations.DecoderFollowsOpcodeTable : Prop :=
  (∀ cw : CmdWord, cmdRows.findIdx? (·.matches cw) = some (decodeCmd cw).rowIndex) ∧
  (∀ sw : SeqWord, seqRows.findIdx? (·.matches sw) = (decodeSeq sw).toOption.map Instr.rowIndex)

/-- The sequencer's choice (R197) is the micro-operation whose pattern the sequencer word fits (R86), with PADBYTE's extra
condition, wherever `t` is 0 outside SCHED and ROUNDS (R30). -/
def Obligations.SequencerWordSelectsMicroOp : Prop :=
  ∀ (s : State) (i : Instr), (s.phase ≠ .sched → s.phase ≠ .rounds → s.t = 0#6) →
    (microOp s = some i ↔
      decodeSeq s.seqWord = .ok i ∧ (s.phase = .fill → s.size.toNat ≤ s.p.toNat))

/-- The words of HASH: START with the number of bytes, then one DATA for each byte in order (R90), for every number of bytes
that START can announce (below 2^64, R89; beyond it the spec gives HASH no words, log entry 18, and nothing is stated). -/
def Obligations.HashExpandsToStartAndData : Prop :=
  ∀ M : List Byte, M.length < 2 ^ 64 →
    ∃ n : BitVec 64, n.toNat = M.length ∧ (AsmLine.hash M).words.map decodeCmd = .start n :: M.map .data

/-! ### One step -/

/-- A core with `cmd_ready = 1` runs the decoded instruction of the word the host holds or offers, and consumes it (R191). -/
def Obligations.StepRunsAcceptedCommand : Prop :=
  ∀ (s : State) (cw : CmdWord) (rest : List HostEvent), s.cmdReady = true →
    (s.host = .hold cw :: rest ∨ s.host = .offer cw :: rest) →
    step s = exec (decodeCmd cw) { s with host := rest }

/-- A core whose sequencer word decodes runs that micro-operation (PADBYTE where `p >= size`), whatever the host presents; a
held command stays, a pause or an offer is over (R86, R190, R191). -/
def Obligations.StepRunsDecodedMicroOp : Prop :=
  ∀ (s : State) (i : Instr), decodeSeq s.seqWord = .ok i → (s.phase = .fill → s.size.toNat ≤ s.p.toNat) →
    (s.host = [] → step s = exec i s) ∧
    (∀ cw rest, s.host = .hold cw :: rest → step s = exec i s) ∧
    (∀ cw rest, s.host = .offer cw :: rest → step s = exec i { s with host := rest }) ∧
    (∀ rest, s.host = .idle :: rest → step s = exec i { s with host := rest })

/-- A core that waits for a command and is presented none changes nothing (R244): a pause is over, an absent host stays
absent (that it takes such a step at all is the model's reading, log entry 16). -/
def Obligations.WaitingCoreChangesNothing : Prop :=
  ∀ s : State, s.cmdReady = true →
    (s.host = [] → step s = .next s) ∧
    (∀ rest, s.host = .idle :: rest → step s = .next { s with host := rest })

/-- No step of the machine ends in a fault or a refusal, from any state (R84, R161, R197, R230; that a waiting core's step
answers a next state is the model's reading, log entry 16). -/
def Obligations.StepNeverStops : Prop :=
  ∀ s : State, ∃ t : State, step s = .next t

/-- A micro-operation is enabled exactly when `cmd_ready = 0` and `busy = 1` (R190). -/
def Obligations.MicroOpEnabledIffNotReady : Prop :=
  ∀ s : State, (microOp s).isSome = true ↔ s.cmdReady = false ∧ s.busy = true

/-- Presenting commands while `cmd_ready = 0` has no effect: the core takes the same step as with no host (R68, R191). -/
def Obligations.BusyCoreIgnoresPort : Prop :=
  ∀ (s : State) (q : List HostEvent), s.cmdReady = false → (∀ rest, q ≠ .reset :: rest) →
    ∃ t : State, step { s with host := [] } = .next t ∧ step { s with host := q } = .next { t with host := hostWaits q }

/-! ### Host commands -/

/-- A legal START (R192), in IDLE, DONE or ERROR: `size` is latched, `p` and `t` are 0, `H` is the IV, the error and the old
digest are cleared, the phase is FILL, and nothing else changes. -/
def Obligations.StartBeginsMessage : Prop :=
  ∀ (s : State) (size : BitVec 64), (s.phase = .idle ∨ s.phase = .done ∨ s.phase = .error) → size.toNat < 2 ^ 61 →
    ∃ n : BitVec 61, n.toNat = size.toNat ∧
      exec (.start size) s = .next
        { s with size := n, p := 0#62, t := 0#6, H := IV, err := .none, digestValid := false, phase := .fill }

/-- A START that is too large (R193, R231), in IDLE, DONE or ERROR: all 64 bits of the operand are looked at, the code is
INPUT_TOO_LARGE, and nothing but `err`, `digest_valid` and `phase` is written. -/
def Obligations.StartTooLargeIsRejected : Prop :=
  ∀ (s : State) (size : BitVec 64), (s.phase = .idle ∨ s.phase = .done ∨ s.phase = .error) → 2 ^ 61 ≤ size.toNat →
    exec (.start size) s = .next { s with err := .inputTooLarge, digestValid := false, phase := .error }

/-- DATA in FILL with `p < size` (R194): the byte lands in `B[p mod 64]`, `p` counts it, and a full buffer is scheduled. -/
def Obligations.DataStoresNextByte : Prop :=
  ∀ (s : State) (byte : Byte), s.phase = .fill → s.p.toNat < s.size.toNat →
    ∃ t : State, exec (.data byte) s = .next t ∧
      (∀ j : Fin 64, t.B[j.val] = if j.val = s.p.toNat % 64 then byte else s.B[j.val]) ∧
      t.p.toNat = s.p.toNat + 1 ∧
      t.phase = (if (s.p.toNat + 1) % 64 = 0 then .sched else .fill) ∧
      t = { s with B := t.B, p := t.p, phase := t.phase }

/-- BAD_CMD (R195, R233): an ILLEGAL word in IDLE, DONE or FILL, a DATA in IDLE or DONE, a START of any size in FILL; nothing
but `err`, `digest_valid` and `phase` is written (R235). -/
def Obligations.OutOfProtocolCommandIsBadCmd : Prop :=
  ∀ (s : State) (i : Instr),
    (i.isIllegal = true ∧ (s.phase = .idle ∨ s.phase = .done ∨ s.phase = .fill ∧ s.p.toNat < s.size.toNat) ∨
      (∃ byte, i = .data byte) ∧ (s.phase = .idle ∨ s.phase = .done) ∨
      (∃ size, i = .start size) ∧ s.phase = .fill ∧ s.p.toNat < s.size.toNat) →
    exec i s = .next { s with err := .badCmd, digestValid := false, phase := .error }

/-- In ERROR, a DATA or an ILLEGAL word changes nothing: the code of the first error stays (R196, R238). -/
def Obligations.ErrorDiscardsDataAndIllegal : Prop :=
  ∀ (s : State) (i : Instr), s.phase = .error → (i.isIllegal = true ∨ ∃ byte, i = .data byte) → exec i s = .next s

/-- A command presented while `cmd_ready = 0` has no effect (R68, R191; that `exec` then answers the same state is the model's
reading, log entry 5). -/
def Obligations.CommandWaitsWhileNotReady : Prop :=
  ∀ (s : State) (i : Instr), i.isCommand = true → s.cmdReady = false → exec i s = .next s

/-- From a starved FILL, two STARTs begin a new message: the first is BAD_CMD, the second is taken (R263, R237). -/
def Obligations.StarvedCoreRecoversByTwoStarts : Prop :=
  ∀ (s : State) (a b : BitVec 64) (rest : List HostEvent), s.phase = .fill → s.p.toNat < s.size.toNat →
    b.toNat < 2 ^ 61 → s.host = .hold (startWord a) :: .hold (startWord b) :: rest →
    (∃ t, step s = .next t ∧ t.phase = .error ∧ t.err = .badCmd ∧ step t = .next
      { s with
        size := b.extractLsb' 0 61, p := 0#62, t := 0#6, H := IV, err := .none, digestValid := false, phase := .fill,
        host := rest })

/-! ### Micro-operations -/

/-- PADBYTE (R116): the padder's byte lands in `B[p mod 64]`, `p` counts it, and a full buffer is scheduled. -/
def Obligations.PadbytePlacesPaddingByte : Prop :=
  ∀ s : State, s.phase = .fill → s.size.toNat ≤ s.p.toNat → s.p.toNat < padP s.size.toNat →
    ∃ t : State, exec .padbyte s = .next t ∧
      (∀ j : Fin 64, t.B[j.val] = if j.val = s.p.toNat % 64 then padByte s.p.toNat s.size else s.B[j.val]) ∧
      t.p.toNat = s.p.toNat + 1 ∧
      t.phase = (if (s.p.toNat + 1) % 64 = 0 then .sched else .fill) ∧
      t = { s with B := t.B, p := t.p, phase := t.phase }

/-- LOADW t (R132): word `t` is the big-endian integer of `B[4t] .. B[4t+3]`, the other words stay, `t` goes on and the phase
stays SCHED. -/
def Obligations.LoadwLoadsBigEndianWord : Prop :=
  ∀ (s : State) (k : BitVec 4) (_ : s.phase = .sched) (_ : s.t.toNat = k.toNat),
    ∃ t : State, exec (.loadw k) s = .next t ∧
      (∀ j : Fin 64, j.val ≠ k.toNat → t.W[j.val] = s.W[j.val]) ∧
      t.W[k.toNat].toNat = s.B[4 * k.toNat].toNat * 2 ^ 24 + s.B[4 * k.toNat + 1].toNat * 2 ^ 16 +
        s.B[4 * k.toNat + 2].toNat * 2 ^ 8 + s.B[4 * k.toNat + 3].toNat ∧
      t.t.toNat = k.toNat + 1 ∧
      t = { s with W := t.W, t := t.t }

/-- EXPAND t (R133), in both rows of its encoding: the recurrence modulo 2^32, the other words stay, and after `t = 63` the
phase is INIT with `t = 0`. -/
def Obligations.ExpandDerivesScheduleWord : Prop :=
  ∀ (s : State) (i : Instr) (n : Nat) (_ : 16 ≤ n) (_ : n < 64), s.phase = .sched → s.t.toNat = n →
    ((∃ k : BitVec 4, i = .expandLow k ∧ n = 16 + k.toNat) ∨ (∃ k : BitVec 5, i = .expandHigh k ∧ n = 32 + k.toNat)) →
    ∃ t : State, exec i s = .next t ∧
      (∀ j : Fin 64, j.val ≠ n → t.W[j.val] = s.W[j.val]) ∧
      t.W[n] = sigma1 s.W[n - 2] + s.W[n - 7] + sigma0 s.W[n - 15] + s.W[n - 16] ∧
      (n = 63 → t.t = 0#6 ∧ t.phase = .init) ∧ (n < 63 → t.t.toNat = n + 1 ∧ t.phase = .sched) ∧
      t = { s with W := t.W, t := t.t, phase := t.phase }

/-- INITWV (R154): the working variables are loaded from the hash state. -/
def Obligations.InitwvLoadsWorkingVariables : Prop :=
  ∀ s : State, s.phase = .init →
    exec .initwv s = .next
      { s with
        wv := { a := s.H[0], b := s.H[1], c := s.H[2], d := s.H[3], e := s.H[4], f := s.H[5], g := s.H[6], h := s.H[7] },
        phase := .rounds }

/-- ROUND t (R155, R160): all eight working variables change together, from their old values; after round 63 the phase is FOLD
with `t = 0`. -/
def Obligations.RoundMixesWorkingVariables : Prop :=
  ∀ (s : State) (k : BitVec 6) (T1 T2 : Word), s.phase = .rounds → s.t = k →
    T1 = s.wv.h + bigSigma1 s.wv.e + ch s.wv.e s.wv.f s.wv.g + K k + s.W[k.toNat] →
    T2 = bigSigma0 s.wv.a + maj s.wv.a s.wv.b s.wv.c →
    ∃ t : State, exec (.round k) s = .next t ∧
      t.wv = { a := T1 + T2, b := s.wv.a, c := s.wv.b, d := s.wv.c,
               e := s.wv.d + T1, f := s.wv.e, g := s.wv.f, h := s.wv.g } ∧
      (k = 63#6 → t.t = 0#6 ∧ t.phase = .fold) ∧ (k ≠ 63#6 → t.t.toNat = k.toNat + 1 ∧ t.phase = .rounds) ∧
      t = { s with wv := t.wv, t := t.t, phase := t.phase }

/-- FOLD (R156): each hash word has its working variable added modulo 2^32, and the phase is EMIT after block `N`
(`p = P = size + 1 + Z + 8`), FILL before. -/
def Obligations.FoldAddsWorkingVariables : Prop :=
  ∀ s : State, s.phase = .fold →
    ∃ t : State, exec .fold s = .next t ∧
      (∀ i : Fin 8, t.H[i.val].toNat =
        (s.H[i.val].toNat +
          (#v[s.wv.a, s.wv.b, s.wv.c, s.wv.d, s.wv.e, s.wv.f, s.wv.g, s.wv.h] : Vector Word 8)[i.val].toNat) % 2 ^ 32) ∧
      t.phase = (if s.p.toNat = s.size.toNat + 1 + padZ s.size.toNat + 8 then .emit else .fill) ∧
      t = { s with H := t.H, phase := t.phase }

/-- EMIT (R180, R181): `D[4i + j]` is byte `j` of `H[i]`, most significant first, all 32 bytes in the step that sets
`digest_valid`, and the digest port shows `H[0] ‖ .. ‖ H[7]` (R32). -/
def Obligations.EmitWritesDigest : Prop :=
  ∀ s : State, s.phase = .emit →
    ∃ t : State, exec .emit s = .next t ∧
      (∀ (i : Fin 8) (j : Fin 4), t.D[4 * i.val + j.val] = byteBE s.H[i.val].toNat 4 j.val) ∧
      t.digest = some (s.H[0] ++ s.H[1] ++ s.H[2] ++ s.H[3] ++ s.H[4] ++ s.H[5] ++ s.H[6] ++ s.H[7]) ∧
      t = { s with D := t.D, digestValid := true, phase := .done }

/-- A micro-operation answers a next state exactly where the sequencer enables it (R197); outside its `require` clause, or with
an operand other than the round counter, it stops under a name of its own (the model's choice, log entry 6). -/
def Obligations.MicroOpRunsOnlyWhereEnabled : Prop :=
  ∀ (s : State) (i : Instr), i.isCommand = false →
    (microOp s = some i → ∃ t, exec i s = .next t) ∧
    (microOp s ≠ some i → ∃ mnemonic, exec i s = .fault (.notEnabled mnemonic))

/-- The "written by" column of R20: an instruction that changes an element is one of those the table names for it, and none
changes the host. -/
def Obligations.OnlyListedInstructionsWriteEachElement : Prop :=
  ∀ (i : Instr) (s t : State), exec i s = .next t →
    (t.H ≠ s.H → (∃ n, i = .start n) ∨ i = .fold) ∧
    (t.wv ≠ s.wv → i = .initwv ∨ ∃ k, i = .round k) ∧
    (t.W ≠ s.W → (∃ k, i = .loadw k) ∨ (∃ k, i = .expandLow k) ∨ ∃ k, i = .expandHigh k) ∧
    (t.B ≠ s.B → (∃ byte, i = .data byte) ∨ i = .padbyte) ∧
    (t.D ≠ s.D → i = .emit) ∧
    (t.size ≠ s.size → ∃ n, i = .start n) ∧
    (t.p ≠ s.p → (∃ n, i = .start n) ∨ (∃ byte, i = .data byte) ∨ i = .padbyte) ∧
    (t.t ≠ s.t → (∃ n, i = .start n) ∨ (∃ k, i = .loadw k) ∨ (∃ k, i = .expandLow k) ∨ (∃ k, i = .expandHigh k) ∨
      ∃ k, i = .round k) ∧
    (t.err ≠ s.err → (∃ n, i = .start n) ∨ i.isCommand = true ∧ t.phase = .error) ∧
    (t.digestValid ≠ s.digestValid → (∃ n, i = .start n) ∨ i = .emit ∨ i.isCommand = true ∧ t.phase = .error) ∧
    t.host = s.host

/-- The outputs `cmd_ready`, `busy` and `err` are these functions of the state (R34, R87). -/
def Obligations.OutputsAreFunctionsOfState : Prop :=
  ∀ s : State,
    (s.cmdReady = true ↔ s.phase = .idle ∨ s.phase = .done ∨ s.phase = .error ∨
      s.phase = .fill ∧ s.p.toNat < s.size.toNat) ∧
    (s.busy = true ↔ s.phase = .fill ∨ s.phase = .sched ∨ s.phase = .init ∨ s.phase = .rounds ∨ s.phase = .fold ∨
      s.phase = .emit) ∧
    (s.errOut.toNat = match s.err with | .none => 0 | .inputTooLarge => 1 | .alloc => 2 | .badCmd => 3)

/-! ### Functions of the data path -/

/-- The bitwise primitives (R10): bit `i` of `rotr(x, n)` is bit `(i + n) mod 32` of `x`, and `shr(x, n)` is
`floor(x / 2^n)`. -/
def Obligations.RotateAndShiftBits : Prop :=
  ∀ (x : Word) (n : Nat), 0 < n → n < 32 →
    (∀ i : Nat, i < 32 → (rotr x n).getLsbD i = x.getLsbD ((i + n) % 32)) ∧ (shr x n).toNat = x.toNat / 2 ^ n

/-- The four mixing functions, bit by bit (R130, R131, R152, R153): rotations by the stated amounts, and for the lower-case two
a shift as third term, whose top bits are zero. -/
def Obligations.MixingFunctionsBits : Prop :=
  ∀ (x : Word) (i : Nat), i < 32 →
    (sigma0 x).getLsbD i =
      ((x.getLsbD ((i + 7) % 32) ^^ x.getLsbD ((i + 18) % 32)) ^^ (decide (i + 3 < 32) && x.getLsbD (i + 3))) ∧
    (sigma1 x).getLsbD i =
      ((x.getLsbD ((i + 17) % 32) ^^ x.getLsbD ((i + 19) % 32)) ^^ (decide (i + 10 < 32) && x.getLsbD (i + 10))) ∧
    (bigSigma0 x).getLsbD i =
      ((x.getLsbD ((i + 2) % 32) ^^ x.getLsbD ((i + 13) % 32)) ^^ x.getLsbD ((i + 22) % 32)) ∧
    (bigSigma1 x).getLsbD i =
      ((x.getLsbD ((i + 6) % 32) ^^ x.getLsbD ((i + 11) % 32)) ^^ x.getLsbD ((i + 25) % 32))

/-- `Ch` and `Maj`, bit by bit (R150, R151): where `x` has a 1 the bit of `y`, where it has a 0 the bit of `z`; the value at
least two of the three bits have. -/
def Obligations.ChooseAndMajorityBits : Prop :=
  ∀ (x y z : Word) (i : Nat), i < 32 →
    (ch x y z).getLsbD i = (if x.getLsbD i then y.getLsbD i else z.getLsbD i) ∧
    (maj x y z).getLsbD i = decide (2 ≤ (x.getLsbD i).toNat + (y.getLsbD i).toNat + (z.getLsbD i).toNat)

/-- The round constants and the initial hash value are the fractional parts of the cube and square roots of the first primes
(R102, R105): `r` is the root scaled by 2^32 and rounded down, and the constant is `r mod 2^32`. -/
def Obligations.ConstantsAreRootsOfPrimes : Prop :=
  let primes := (List.range 312).filter fun n => decide (2 ≤ n) && (List.range n).all fun m => decide (m < 2) || n % m != 0
  primes.length = 64 ∧
  (∀ t : Fin 64, ∃ r : Nat, r ^ 3 ≤ primes.getD t.val 0 * 2 ^ 96 ∧ primes.getD t.val 0 * 2 ^ 96 < (r + 1) ^ 3 ∧
    (K (BitVec.ofNat 6 t.val)).toNat = r % 2 ^ 32) ∧
  (∀ i : Fin 8, ∃ r : Nat, r ^ 2 ≤ primes.getD i.val 0 * 2 ^ 64 ∧ primes.getD i.val 0 * 2 ^ 64 < (r + 1) ^ 2 ∧
    IV[i.val].toNat = r % 2 ^ 32)

/-- The padding quantities (R110): `l`, `k`, `Z`, `P` and `N` satisfy the equations and bounds of the rule; `k` is the least
count for which `l + 1 + k` is 448 modulo 512, so the total bit length is a multiple of 512, and `k mod 8 = 7`. -/
def Obligations.PaddingQuantities : Prop :=
  ∀ (size l : Nat), size < 2 ^ 61 → l = 8 * size →
    l ≤ 2 ^ 64 - 8 ∧
    (padK size : Int) = (447 - (l : Int)) % 512 ∧ padK size ≤ 511 ∧ padK size % 8 = 7 ∧
    (l + 1 + padK size) % 512 = 448 ∧ (∀ k, (l + 1 + k) % 512 = 448 → padK size ≤ k) ∧
    (l + 1 + padK size + 64) % 512 = 0 ∧
    padZ size = (padK size - 7) / 8 ∧ (padZ size : Int) = (55 - (size : Int)) % 64 ∧ padZ size ≤ 63 ∧
    padP size = (l + 1 + padK size + 64) / 8 ∧ padP size = size + 1 + padZ size + 8 ∧
    padN size = padP size / 64 ∧ padP size = 64 * padN size ∧ padN size = (size + 8) / 64 + 1

/-- The padder's byte function (R112) is the padded message (R111) from its terminator on; the padded message is `P` bytes
long and begins with the message. -/
def Obligations.PadByteIsPaddedMessage : Prop :=
  ∀ (M : List Byte) (size : BitVec 61), M.length = size.toNat →
    (padMsg M).length = padP size.toNat ∧ (padMsg M).take M.length = M ∧
    ∀ j : Nat, size.toNat ≤ j → j < padP size.toNat → (padMsg M)[j]? = some (padByte j size)

/-- The length field (R115, R121): `l` formed as `size ‖ 000` is `8 * size` and never truncates; the last eight padding bytes
are its big-endian bytes; and no index reaches the end of the counter `p`. -/
def Obligations.LengthFieldIsBitLength : Prop :=
  ∀ size : BitVec 61, (lenBits size).toNat = 8 * size.toNat ∧ padP size.toNat ≤ 2 ^ 61 + 64 ∧
    ∀ m : Nat, m < 8 → padByte (padP size.toNat - 8 + m) size = byteBE (8 * size.toNat) 8 m

/-! ### Reset -/

/-- The state after reset (R261): the stated values, and the outputs with a stated value.  R261 leaves the `digest` output
unspecified: that it is no value there is the model's choice (log entry 8).  What the other registers hold there is the
model's choice too (log entry 1) and not stated. -/
def Obligations.ResetState : Prop :=
  State.reset.phase = .idle ∧ State.reset.t = 0#6 ∧ State.reset.err = .none ∧ State.reset.digestValid = false ∧
  State.reset.cmdReady = true ∧ State.reset.busy = false ∧ State.reset.errOut = 0#2 ∧ State.reset.digest = none

/-- The reset event (R260, R262): in any phase it is one step that writes the four control registers; the rest is left as it
was (that a model may say so of the registers without a specified value is its own reading, log entry 2). -/
def Obligations.ResetEventWritesControlOnly : Prop :=
  ∀ (s : State) (rest : List HostEvent), s.host = .reset :: rest →
    step s = .next { s with phase := .idle, t := 0#6, err := .none, digestValid := false, host := rest }

/-! ### Invariants -/

/-- The control registers hold together at reset. -/
def Obligations.CtrlInvAtReset : Prop := State.reset.CtrlInv

/-- Every step keeps the control registers together: `t = 0` outside SCHED and ROUNDS (R30), `err` nonzero exactly in ERROR
(R33) and never ALLOC (R232), `digest_valid` exactly in DONE (R239), the byte counter inside the padded message and at a block
boundary or at `P` where the phase says so (R29, R116, R156). -/
def Obligations.CtrlInvKeptByStep : Prop :=
  ∀ s t : State, s.CtrlInv → step s = .next t → t.CtrlInv

/-- The data registers hold what the components compute: at reset, where nothing is computed yet and nothing is asked of them
(the base case), and after every step from a state in which they do: the schedule of the block in `B` as far as it is
written (R134), the working variables of its compression as far as its rounds are done (R157), the digest of `H` in DONE
(R181). -/
def Obligations.DataInvKeptByStep : Prop :=
  State.reset.DataInv ∧ ∀ s t : State, s.CtrlInv → s.DataInv → step s = .next t → t.DataInv

/-- So FOLD compresses: with the data registers as the invariant says, the hash state after FOLD is `Compress(H, Schedule(B))`
(R157). -/
def Obligations.FoldCompletesCompression : Prop :=
  ∀ s t : State, s.DataInv → s.phase = .fold → step s = .next t → (∀ rest, s.host ≠ .reset :: rest) →
    t.H = compress s.H (schedule s.B)

/-! ### Whole blocks and invocations -/

/-- The expander as a function (R134): the schedule of a block has the block's big-endian words and then the words of the
recurrence, and the 64 steps on a full buffer leave it in `W`, with `t = 0` and phase INIT, and change nothing else. -/
def Obligations.ScheduleStepsComputeSchedule : Prop :=
  (∀ (b : Vector Byte 64) (t : Nat) (_ : t < 16),
    (schedule b)[t].toNat =
      b[4 * t].toNat * 2 ^ 24 + b[4 * t + 1].toNat * 2 ^ 16 + b[4 * t + 2].toNat * 2 ^ 8 + b[4 * t + 3].toNat) ∧
  (∀ (b : Vector Byte 64) (t : Nat) (_ : 16 ≤ t) (_ : t < 64),
    (schedule b)[t] =
      sigma1 (schedule b)[t - 2] + (schedule b)[t - 7] + sigma0 (schedule b)[t - 15] + (schedule b)[t - 16]) ∧
  ∀ s : State, s.phase = .sched → s.t = 0#6 → s.host = [] →
    Sys2Proof.core.run 64 s = .next { s with W := schedule s.B, t := 0#6, phase := .init }

/-- The compressor as a function (R157): INITWV, 64 ROUND and FOLD take `H` to `Compress(H, W)`; the phase is EMIT after block
`N`, FILL before. -/
def Obligations.CompressStepsComputeCompress : Prop :=
  ∀ s : State, s.phase = .init → s.t = 0#6 → s.host = [] →
    Sys2Proof.core.run 66 s = .next
      { s with
        H := compress s.H s.W, wv := roundsUpTo s.H s.W 64,
        phase := if s.p.toNat = padP s.size.toNat then .emit else .fill }

/-- What an invocation computes (R200, R203): from any state in IDLE, DONE or ERROR, for every message `M` below the size
limit, a host that presents START and then the bytes of `M` sees DONE after `194 N + 2` steps, with the SHA-256 digest of `M` in
`D` and on the port, every command accepted and no error. -/
def Obligations.InvocationComputesDigest : Prop :=
  ∀ (s : State) (M : List Byte), (s.phase = .idle ∨ s.phase = .done ∨ s.phase = .error) → M.length < 2 ^ 61 →
    s.host = hostOf [.hash M] →
    ∃ t : State, Sys2Proof.core.run (194 * padN M.length + 2) s = .next t ∧
      t.phase = .done ∧ t.D = sha256 M ∧ t.digest = some (digestWord (sha256 M)) ∧ t.err = .none ∧ t.host = []

/-- No hold lasts longer than 333 micro-operations (R202): from every state with `busy = 1` and `cmd_ready = 0` in which the
control registers hold together, the core alone reaches one with `cmd_ready = 1`. -/
def Obligations.HoldEndsWithin333Steps : Prop :=
  ∀ s : State, s.CtrlInv → s.busy = true → s.cmdReady = false → s.host = [] →
    ∃ (n : Nat) (t : State), n ≤ 333 ∧ Sys2Proof.core.run n s = .next t ∧ t.cmdReady = true

/-- The phase graph (R199): a step that is no reset goes from a phase to a phase as this list says: the edges, and
the phases in which the core may wait (a step that waits is the model's reading, log entry 16). -/
def Obligations.StepFollowsPhaseGraph : Prop :=
  ∀ s t : State, step s = .next t → (∀ rest, s.host ≠ .reset :: rest) →
    (s.phase, t.phase) ∈ ([(.idle, .idle), (.idle, .fill), (.idle, .error), (.done, .done), (.done, .fill), (.done, .error),
      (.error, .error), (.error, .fill), (.fill, .fill), (.fill, .sched), (.fill, .error), (.sched, .sched), (.sched, .init),
      (.init, .rounds), (.rounds, .rounds), (.rounds, .fold), (.fold, .fill), (.fold, .emit), (.emit, .done)] :
        List (Phase × Phase))

/-- Error entry (R235): a step that ends in ERROR is the acceptance of a presented command (R191) that writes `err`,
`digest_valid` and `phase` and nothing else of the core, with the code INPUT_TOO_LARGE or BAD_CMD, in ERROR only by a START that
is too large (R199); or it is a step in ERROR in which no START is presented and which writes nothing: a command is discarded
(R196), or the core waits (that it takes such a step is the model's reading, log entry 16). -/
def Obligations.ErrorEntryWritesNothingElse : Prop :=
  ∀ s t : State, step s = .next t → t.phase = .error →
    ((∃ cw, presented s.host = some cw ∧
        (s.phase = .error → ∃ n : BitVec 64, decodeCmd cw = .start n ∧ 2 ^ 61 ≤ n.toNat ∧ t.err = .inputTooLarge)) ∧
      s.cmdReady = true ∧ (t.err = .inputTooLarge ∨ t.err = .badCmd) ∧
      t = { s with err := t.err, digestValid := false, phase := .error, host := t.host }) ∨
    (s.phase = .error ∧ (∀ cw n, presented s.host = some cw → decodeCmd cw ≠ .start n) ∧ t = { s with host := t.host })

/-- No partial results (R239): `digest_valid` becomes 1 only by the EMIT of a fully padded and folded message, and while it is
1 the digest on the port is that of `H`. -/
def Obligations.DigestBecomesValidOnlyByEmit : Prop :=
  ∀ s t : State, s.CtrlInv → s.DataInv → step s = .next t → t.digestValid = true →
    t.digest = some (digestWord (digestOf t.H)) ∧
    (s.digestValid = true ∨ s.phase = .emit ∧ s.p.toNat = padP s.size.toNat)

/-- The lifetime of the digest (R207): it stays on the port until the next accepted command or reset, and an accepted command
of any kind takes it away (that the port then shows no value is the model's choice, log entry 8). -/
def Obligations.DigestStaysUntilCommandOrReset : Prop :=
  ∀ s t : State, s.phase = .done → s.digestValid = true → step s = .next t →
    (presented s.host = none → (∀ rest, s.host ≠ .reset :: rest) → t.digest = s.digest ∧ t.phase = .done) ∧
    (∀ cw, presented s.host = some cw → t.digest = none) ∧
    (∀ rest, s.host = .reset :: rest → t.digest = none)

/-- The ends of a run (R204, R244): where the control registers hold together, a run that has ended stays as it is (that its
step answers the same state is the model's reading, log entry 16), in DONE with a
valid digest and no error, in ERROR with an error and no digest, in IDLE, or in FILL starved of bytes. -/
def Obligations.EndedRunStaysEnded : Prop :=
  ∀ s : State, s.CtrlInv → s.ended = true →
    step s = .next s ∧
    (s.phase = .done ∧ s.digestValid = true ∧ s.err = .none ∨
      s.phase = .error ∧ s.digestValid = false ∧ s.err ≠ .none ∨
      s.phase = .idle ∧ s.digestValid = false ∧ s.err = .none ∨
      s.phase = .fill ∧ s.p.toNat < s.size.toNat ∧ s.digestValid = false ∧ s.err = .none ∧ s.busy = true)

/-- Control does not depend on data (R269): two states whose control registers are equal and whose hosts act the same, event by
event, but for the bytes of any DATA, have the same micro-operation enabled, and agree in the same way after a step. -/
def Obligations.ControlDoesNotDependOnData : Prop :=
  ∀ s s' t t' : State, s.SameControl s' → step s = .next t → step s' = .next t' →
    microOp s = microOp s' ∧ t.SameControl t'

/-- The sequence of steps of an invocation depends on `size` alone (R269): two invocations for messages of the same length, from
any two states in IDLE, DONE or ERROR, have after every number of steps equal control registers and the same micro-operation
enabled. -/
def Obligations.InvocationStepsDependOnSizeAlone : Prop :=
  ∀ (s s' t t' : State) (M M' : List Byte) (n : Nat),
    (s.phase = .idle ∨ s.phase = .done ∨ s.phase = .error) → (s'.phase = .idle ∨ s'.phase = .done ∨ s'.phase = .error) →
    M.length = M'.length → M.length < 2 ^ 61 → s.host = hostOf [.hash M] → s'.host = hostOf [.hash M'] →
    Sys2Proof.core.run (n + 1) s = .next t → Sys2Proof.core.run (n + 1) s' = .next t' →
    t.SameControl t' ∧ microOp t = microOp t'

/-- Nothing but the constants survives a START (R209, R262): two cores in IDLE, DONE or ERROR, whatever their registers hold,
whose hosts present the same legal START and then the same actions, show the same outputs after every number of steps.  R32 and
U3 let the `digest` output be anything, also something that depends on the past, while `digest_valid = 0`: that it is equal
there too, being no value, is the model's choice (log entry 8). -/
def Obligations.OutputsAfterStartForgetThePast : Prop :=
  ∀ (s s' t t' : State) (size : BitVec 64) (rest : List HostEvent) (n : Nat),
    (s.phase = .idle ∨ s.phase = .done ∨ s.phase = .error) → (s'.phase = .idle ∨ s'.phase = .done ∨ s'.phase = .error) →
    size.toNat < 2 ^ 61 → s.host = .hold (startWord size) :: rest → s'.host = .hold (startWord size) :: rest →
    Sys2Proof.core.run (n + 1) s = .next t → Sys2Proof.core.run (n + 1) s' = .next t' →
    t.cmdReady = t'.cmdReady ∧ t.busy = t'.busy ∧ t.err = t'.err ∧ t.digestValid = t'.digestValid ∧ t.digest = t'.digest
end

