-- ==== Sys2Proof/Laws/State.lean ====
section
/-! SUPPORT. What each shared update of the state leaves in each field, so that no proof unfolds a record update. -/

namespace Sys2Proof.Machine

/-! Error entry (R235). -/

@[simp] theorem State.raise_H (s : State) (e : Err) : (s.raise e).H = s.H := rfl
@[simp] theorem State.raise_wv (s : State) (e : Err) : (s.raise e).wv = s.wv := rfl
@[simp] theorem State.raise_W (s : State) (e : Err) : (s.raise e).W = s.W := rfl
@[simp] theorem State.raise_B (s : State) (e : Err) : (s.raise e).B = s.B := rfl
@[simp] theorem State.raise_D (s : State) (e : Err) : (s.raise e).D = s.D := rfl
@[simp] theorem State.raise_size (s : State) (e : Err) : (s.raise e).size = s.size := rfl
@[simp] theorem State.raise_p (s : State) (e : Err) : (s.raise e).p = s.p := rfl
@[simp] theorem State.raise_t (s : State) (e : Err) : (s.raise e).t = s.t := rfl
@[simp] theorem State.raise_phase (s : State) (e : Err) : (s.raise e).phase = .error := rfl
@[simp] theorem State.raise_err (s : State) (e : Err) : (s.raise e).err = e := rfl
@[simp] theorem State.raise_digestValid (s : State) (e : Err) : (s.raise e).digestValid = false := rfl
@[simp] theorem State.raise_host (s : State) (e : Err) : (s.raise e).host = s.host := rfl

/-! A legal START (R192). -/

@[simp] theorem State.beginMessage_H (s : State) (n : BitVec 61) : (s.beginMessage n).H = IV := rfl
@[simp] theorem State.beginMessage_wv (s : State) (n : BitVec 61) : (s.beginMessage n).wv = s.wv := rfl
@[simp] theorem State.beginMessage_W (s : State) (n : BitVec 61) : (s.beginMessage n).W = s.W := rfl
@[simp] theorem State.beginMessage_B (s : State) (n : BitVec 61) : (s.beginMessage n).B = s.B := rfl
@[simp] theorem State.beginMessage_D (s : State) (n : BitVec 61) : (s.beginMessage n).D = s.D := rfl
@[simp] theorem State.beginMessage_size (s : State) (n : BitVec 61) : (s.beginMessage n).size = n := rfl
@[simp] theorem State.beginMessage_p (s : State) (n : BitVec 61) : (s.beginMessage n).p = 0#62 := rfl
@[simp] theorem State.beginMessage_t (s : State) (n : BitVec 61) : (s.beginMessage n).t = 0#6 := rfl
@[simp] theorem State.beginMessage_phase (s : State) (n : BitVec 61) : (s.beginMessage n).phase = .fill := rfl
@[simp] theorem State.beginMessage_err (s : State) (n : BitVec 61) : (s.beginMessage n).err = .none := rfl
@[simp] theorem State.beginMessage_digestValid (s : State) (n : BitVec 61) :
    (s.beginMessage n).digestValid = false := rfl
@[simp] theorem State.beginMessage_host (s : State) (n : BitVec 61) : (s.beginMessage n).host = s.host := rfl

/-! A byte placed in the block buffer (R116, R194). -/

@[simp] theorem State.placeByte_H (s : State) (byte : Byte) : (s.placeByte byte).H = s.H := rfl
@[simp] theorem State.placeByte_wv (s : State) (byte : Byte) : (s.placeByte byte).wv = s.wv := rfl
@[simp] theorem State.placeByte_W (s : State) (byte : Byte) : (s.placeByte byte).W = s.W := rfl
@[simp] theorem State.placeByte_B (s : State) (byte : Byte) :
    (s.placeByte byte).B = s.B.set (s.p.toNat % 64) byte (Nat.mod_lt _ (by decide)) := rfl
@[simp] theorem State.placeByte_D (s : State) (byte : Byte) : (s.placeByte byte).D = s.D := rfl
@[simp] theorem State.placeByte_size (s : State) (byte : Byte) : (s.placeByte byte).size = s.size := rfl
@[simp] theorem State.placeByte_p (s : State) (byte : Byte) : (s.placeByte byte).p = s.p + 1#62 := rfl
@[simp] theorem State.placeByte_t (s : State) (byte : Byte) : (s.placeByte byte).t = s.t := rfl
@[simp] theorem State.placeByte_phase (s : State) (byte : Byte) :
    (s.placeByte byte).phase = if (s.p.toNat + 1) % 64 = 0 then .sched else s.phase := rfl
@[simp] theorem State.placeByte_err (s : State) (byte : Byte) : (s.placeByte byte).err = s.err := rfl
@[simp] theorem State.placeByte_digestValid (s : State) (byte : Byte) :
    (s.placeByte byte).digestValid = s.digestValid := rfl
@[simp] theorem State.placeByte_host (s : State) (byte : Byte) : (s.placeByte byte).host = s.host := rfl

/-! The reset event (R260). -/

@[simp] theorem State.applyReset_H (s : State) : s.applyReset.H = s.H := rfl
@[simp] theorem State.applyReset_wv (s : State) : s.applyReset.wv = s.wv := rfl
@[simp] theorem State.applyReset_W (s : State) : s.applyReset.W = s.W := rfl
@[simp] theorem State.applyReset_B (s : State) : s.applyReset.B = s.B := rfl
@[simp] theorem State.applyReset_D (s : State) : s.applyReset.D = s.D := rfl
@[simp] theorem State.applyReset_size (s : State) : s.applyReset.size = s.size := rfl
@[simp] theorem State.applyReset_p (s : State) : s.applyReset.p = s.p := rfl
@[simp] theorem State.applyReset_t (s : State) : s.applyReset.t = 0#6 := rfl
@[simp] theorem State.applyReset_phase (s : State) : s.applyReset.phase = .idle := rfl
@[simp] theorem State.applyReset_err (s : State) : s.applyReset.err = .none := rfl
@[simp] theorem State.applyReset_digestValid (s : State) : s.applyReset.digestValid = false := rfl
@[simp] theorem State.applyReset_host (s : State) : s.applyReset.host = s.host := rfl

/-! LOADW (R132). -/

@[simp] theorem State.loadWord_H (s : State) (k : BitVec 4) : (s.loadWord k).H = s.H := rfl
@[simp] theorem State.loadWord_wv (s : State) (k : BitVec 4) : (s.loadWord k).wv = s.wv := rfl
@[simp] theorem State.loadWord_W (s : State) (k : BitVec 4) :
    (s.loadWord k).W = s.W.set k.toNat (memRead4 s.B (4 * k.toNat) (by omega)) := rfl
@[simp] theorem State.loadWord_B (s : State) (k : BitVec 4) : (s.loadWord k).B = s.B := rfl
@[simp] theorem State.loadWord_D (s : State) (k : BitVec 4) : (s.loadWord k).D = s.D := rfl
@[simp] theorem State.loadWord_size (s : State) (k : BitVec 4) : (s.loadWord k).size = s.size := rfl
@[simp] theorem State.loadWord_p (s : State) (k : BitVec 4) : (s.loadWord k).p = s.p := rfl
@[simp] theorem State.loadWord_t (s : State) (k : BitVec 4) : (s.loadWord k).t = s.t + 1#6 := rfl
@[simp] theorem State.loadWord_phase (s : State) (k : BitVec 4) : (s.loadWord k).phase = s.phase := rfl
@[simp] theorem State.loadWord_err (s : State) (k : BitVec 4) : (s.loadWord k).err = s.err := rfl
@[simp] theorem State.loadWord_digestValid (s : State) (k : BitVec 4) :
    (s.loadWord k).digestValid = s.digestValid := rfl
@[simp] theorem State.loadWord_host (s : State) (k : BitVec 4) : (s.loadWord k).host = s.host := rfl

/-! EXPAND (R133). -/

@[simp] theorem State.expand_H (s : State) (k : BitVec 6) : (s.expand k).H = s.H := rfl
@[simp] theorem State.expand_wv (s : State) (k : BitVec 6) : (s.expand k).wv = s.wv := rfl
@[simp] theorem State.expand_W (s : State) (k : BitVec 6) : (s.expand k).W = s.W.set k.toNat (expandWord s.W k) := rfl
@[simp] theorem State.expand_B (s : State) (k : BitVec 6) : (s.expand k).B = s.B := rfl
@[simp] theorem State.expand_D (s : State) (k : BitVec 6) : (s.expand k).D = s.D := rfl
@[simp] theorem State.expand_size (s : State) (k : BitVec 6) : (s.expand k).size = s.size := rfl
@[simp] theorem State.expand_p (s : State) (k : BitVec 6) : (s.expand k).p = s.p := rfl
@[simp] theorem State.expand_t (s : State) (k : BitVec 6) : (s.expand k).t = if k = 63#6 then 0#6 else k + 1#6 := rfl
@[simp] theorem State.expand_phase (s : State) (k : BitVec 6) :
    (s.expand k).phase = if k = 63#6 then .init else s.phase := rfl
@[simp] theorem State.expand_err (s : State) (k : BitVec 6) : (s.expand k).err = s.err := rfl
@[simp] theorem State.expand_digestValid (s : State) (k : BitVec 6) : (s.expand k).digestValid = s.digestValid := rfl
@[simp] theorem State.expand_host (s : State) (k : BitVec 6) : (s.expand k).host = s.host := rfl

/-! INITWV (R154). -/

@[simp] theorem State.loadVars_H (s : State) : s.loadVars.H = s.H := rfl
@[simp] theorem State.loadVars_wv (s : State) : s.loadVars.wv = WorkVars.ofHash s.H := rfl
@[simp] theorem State.loadVars_W (s : State) : s.loadVars.W = s.W := rfl
@[simp] theorem State.loadVars_B (s : State) : s.loadVars.B = s.B := rfl
@[simp] theorem State.loadVars_D (s : State) : s.loadVars.D = s.D := rfl
@[simp] theorem State.loadVars_size (s : State) : s.loadVars.size = s.size := rfl
@[simp] theorem State.loadVars_p (s : State) : s.loadVars.p = s.p := rfl
@[simp] theorem State.loadVars_t (s : State) : s.loadVars.t = s.t := rfl
@[simp] theorem State.loadVars_phase (s : State) : s.loadVars.phase = .rounds := rfl
@[simp] theorem State.loadVars_err (s : State) : s.loadVars.err = s.err := rfl
@[simp] theorem State.loadVars_digestValid (s : State) : s.loadVars.digestValid = s.digestValid := rfl
@[simp] theorem State.loadVars_host (s : State) : s.loadVars.host = s.host := rfl

/-! ROUND (R155). -/

@[simp] theorem State.mixRound_H (s : State) (k : BitVec 6) : (s.mixRound k).H = s.H := rfl
@[simp] theorem State.mixRound_wv (s : State) (k : BitVec 6) :
    (s.mixRound k).wv = roundStage s.wv (K k) s.W[k.toNat] := rfl
@[simp] theorem State.mixRound_W (s : State) (k : BitVec 6) : (s.mixRound k).W = s.W := rfl
@[simp] theorem State.mixRound_B (s : State) (k : BitVec 6) : (s.mixRound k).B = s.B := rfl
@[simp] theorem State.mixRound_D (s : State) (k : BitVec 6) : (s.mixRound k).D = s.D := rfl
@[simp] theorem State.mixRound_size (s : State) (k : BitVec 6) : (s.mixRound k).size = s.size := rfl
@[simp] theorem State.mixRound_p (s : State) (k : BitVec 6) : (s.mixRound k).p = s.p := rfl
@[simp] theorem State.mixRound_t (s : State) (k : BitVec 6) :
    (s.mixRound k).t = if k = 63#6 then 0#6 else k + 1#6 := rfl
@[simp] theorem State.mixRound_phase (s : State) (k : BitVec 6) :
    (s.mixRound k).phase = if k = 63#6 then .fold else s.phase := rfl
@[simp] theorem State.mixRound_err (s : State) (k : BitVec 6) : (s.mixRound k).err = s.err := rfl
@[simp] theorem State.mixRound_digestValid (s : State) (k : BitVec 6) :
    (s.mixRound k).digestValid = s.digestValid := rfl
@[simp] theorem State.mixRound_host (s : State) (k : BitVec 6) : (s.mixRound k).host = s.host := rfl

/-! FOLD (R156). -/

@[simp] theorem State.foldVars_H (s : State) : s.foldVars.H = addVars s.H s.wv := rfl
@[simp] theorem State.foldVars_wv (s : State) : s.foldVars.wv = s.wv := rfl
@[simp] theorem State.foldVars_W (s : State) : s.foldVars.W = s.W := rfl
@[simp] theorem State.foldVars_B (s : State) : s.foldVars.B = s.B := rfl
@[simp] theorem State.foldVars_D (s : State) : s.foldVars.D = s.D := rfl
@[simp] theorem State.foldVars_size (s : State) : s.foldVars.size = s.size := rfl
@[simp] theorem State.foldVars_p (s : State) : s.foldVars.p = s.p := rfl
@[simp] theorem State.foldVars_t (s : State) : s.foldVars.t = s.t := rfl
@[simp] theorem State.foldVars_phase (s : State) :
    s.foldVars.phase = if s.p.toNat = padP s.size.toNat then .emit else .fill := rfl
@[simp] theorem State.foldVars_err (s : State) : s.foldVars.err = s.err := rfl
@[simp] theorem State.foldVars_digestValid (s : State) : s.foldVars.digestValid = s.digestValid := rfl
@[simp] theorem State.foldVars_host (s : State) : s.foldVars.host = s.host := rfl

/-! EMIT (R180). -/

@[simp] theorem State.writeOut_H (s : State) : s.writeOut.H = s.H := by
  unfold State.writeOut; rfl
@[simp] theorem State.writeOut_wv (s : State) : s.writeOut.wv = s.wv := by
  unfold State.writeOut; rfl
@[simp] theorem State.writeOut_W (s : State) : s.writeOut.W = s.W := by
  unfold State.writeOut; rfl
@[simp] theorem State.writeOut_B (s : State) : s.writeOut.B = s.B := by
  unfold State.writeOut; rfl
@[simp] theorem State.writeOut_D (s : State) : s.writeOut.D = writeDigest s.D s.H := by
  unfold State.writeOut; rfl
@[simp] theorem State.writeOut_size (s : State) : s.writeOut.size = s.size := by
  unfold State.writeOut; rfl
@[simp] theorem State.writeOut_p (s : State) : s.writeOut.p = s.p := by
  unfold State.writeOut; rfl
@[simp] theorem State.writeOut_t (s : State) : s.writeOut.t = s.t := by
  unfold State.writeOut; rfl
@[simp] theorem State.writeOut_phase (s : State) : s.writeOut.phase = .done := by
  unfold State.writeOut; rfl
@[simp] theorem State.writeOut_err (s : State) : s.writeOut.err = s.err := by
  unfold State.writeOut; rfl
@[simp] theorem State.writeOut_digestValid (s : State) : s.writeOut.digestValid = true := by
  unfold State.writeOut; rfl
@[simp] theorem State.writeOut_host (s : State) : s.writeOut.host = s.host := by
  unfold State.writeOut; rfl

end Sys2Proof.Machine
end

