-- ==== Sys2Proof/Laws/Ops.lean ====
section
/-! SUPPORT. One lemma per shared operation, saying once everything it can do: the command port, the `require` clause, the
big-endian accesses, and the arithmetic of the padding quantities. -/

namespace Sys2Proof.Machine

/-! The command port and the `require` clause. -/

/-- What a presented command answers: always a next state, its effect or none (R68, R191). -/
@[simp] theorem atPort_eq_next (s a t : State) : atPort s a = .next t ↔ t = if s.cmdReady then a else s := by
  rw [atPort, Host.Outcome.next.injEq]
  exact eq_comm

/-- What a micro-operation answers where it answers a next state: it was enabled, and the state is its effect. -/
@[simp] theorem whenEnabled_eq_next (b : Bool) (m : String) (e t : State) :
    whenEnabled b m e = .next t ↔ b = true ∧ t = e := by
  cases b <;> simp [whenEnabled, eq_comm]

theorem whenEnabled_true (m : String) (e : State) : whenEnabled true m e = .next e := rfl

theorem whenEnabled_false (m : String) (e : State) : whenEnabled false m e = .fault (.notEnabled m) := rfl

/-- FILL accepts commands exactly while `p < size`; the other waiting phases always do; no other phase does (R34). -/
theorem cmdReady_iff (s : State) :
    s.cmdReady = true ↔ s.phase = .idle ∨ s.phase = .done ∨ s.phase = .error ∨
      s.phase = .fill ∧ s.p.toNat < s.size.toNat := by
  cases h : s.phase <;> simp [State.cmdReady, State.padding, h]

/-! Byte order. -/

/-- Four bytes as one unsigned integer, the first most significant (R11). -/
theorem be32_toNat (b0 b1 b2 b3 : Byte) :
    (be32 b0 b1 b2 b3).toNat = b0.toNat * 2 ^ 24 + b1.toNat * 2 ^ 16 + b2.toNat * 2 ^ 8 + b3.toNat := by
  simp only [be32, BitVec.toNat_append, Nat.shiftLeft_eq]
  rw [← Nat.shiftLeft_eq b0.toNat, ← Nat.shiftLeft_add_eq_or_of_lt b1.isLt,
    ← Nat.shiftLeft_eq (b0.toNat <<< 8 + b1.toNat), ← Nat.shiftLeft_add_eq_or_of_lt b2.isLt,
    ← Nat.shiftLeft_eq ((b0.toNat <<< 8 + b1.toNat) <<< 8 + b2.toNat), ← Nat.shiftLeft_add_eq_or_of_lt b3.isLt]
  simp only [Nat.shiftLeft_eq]
  omega

/-- The byte of a word that `byteBE` names, as the slice `MemWrite` stores (R11). -/
theorem byteBE_word (v : Word) (i : Nat) : byteBE v.toNat 4 i = v.extractLsb' (8 * (3 - i)) 8 := by
  apply BitVec.eq_of_toNat_eq
  simp [byteBE, BitVec.extractLsb'_toNat, Nat.shiftRight_eq_div_pow]

/-! The padding quantities (R110). -/

theorem padZ_le (n : Nat) : padZ n ≤ 63 := by unfold padZ; omega

/-- The padded message is a whole number of blocks. -/
theorem padP_mod (n : Nat) : padP n % 64 = 0 := by unfold padP padZ; omega

/-- The padded message is strictly longer than the message. -/
theorem lt_padP (n : Nat) : n + 9 ≤ padP n := by unfold padP; omega

theorem padP_le (n : Nat) : padP n ≤ n + 72 := by have := padZ_le n; unfold padP; omega

theorem padP_eq_blocks (n : Nat) : padP n = 64 * padN n := by have := padP_mod n; unfold padN; omega

theorem padN_pos (n : Nat) : 1 ≤ padN n := by have := padP_mod n; have := lt_padP n; unfold padN; omega

/-- The message length of R28 never carries a counter of R29 out of its 62 bits. -/
theorem padP_lt (n : BitVec 61) : padP n.toNat < 2 ^ 62 := by have := padP_le n.toNat; have := n.isLt; omega

theorem lenBits_toNat (n : BitVec 61) : (lenBits n).toNat = 8 * n.toNat := by
  simp only [lenBits, BitVec.toNat_append]
  simp [Nat.shiftLeft_eq]
  omega

/-! The byte arrays. -/

/-- One element of an array after one element was set. -/
theorem getElem_set_eq {α : Type} {n : Nat} (v : Vector α n) (i : Nat) (hi : i < n) (x : α) (j : Nat) (hj : j < n) :
    (v.set i x hi)[j] = if j = i then x else v[j] := by
  rw [Vector.getElem_set]
  simp [eq_comm]

/-- Concatenation as numbers. -/
theorem append_toNat {m n : Nat} (x : BitVec m) (y : BitVec n) : (x ++ y).toNat = x.toNat * 2 ^ n + y.toNat := by
  rw [BitVec.toNat_append, ← Nat.shiftLeft_add_eq_or_of_lt y.isLt, Nat.shiftLeft_eq]

/-- A round counter that is not at its end counts without wrapping. -/
theorem succ_toNat (t : BitVec 6) (h : t ≠ 63#6) : (t + 1#6).toNat = t.toNat + 1 := by
  have : t.toNat ≠ 63 := fun h' => h (by apply BitVec.eq_of_toNat_eq; simpa using h')
  simp; omega

/-- Each byte EMIT writes is the byte of the hash state the digest has there (R180, R181). -/
theorem writeDigest_getElem (D : Vector Byte 32) (H : Vector Word 8) (k : Nat) (hk : k < 32) :
    (writeDigest D H)[k] = byteBE H[k / 4].toNat 4 (k % 4) := by
  rw [byteBE_word]
  simp only [writeDigest, memWrite4, getElem_set_eq]
  interval_cases k <;> rfl

/-- The eight writes of EMIT cover all of `D`: nothing of its old contents is left (R180). -/
theorem writeDigest_eq (D : Vector Byte 32) (H : Vector Word 8) : writeDigest D H = digestOf H := by
  apply Vector.ext
  intro k hk
  rw [writeDigest_getElem D H k hk, digestOf, Vector.getElem_ofFn]

end Sys2Proof.Machine
end

