-- ==== Sys2Proof/Laws/Decode.lean ====
section
/-! SUPPORT. The fields of a command word, and what class its instruction is of. -/

namespace Sys2Proof

theorem cmdOp_append (op : BitVec 4) (arg : BitVec 64) : cmdOp (op ++ arg) = op := by
  unfold cmdOp
  rw [BitVec.extractLsb'_append_eq_left]

theorem cmdArg_append (op : BitVec 4) (arg : BitVec 64) : cmdArg (op ++ arg) = arg := by
  unfold cmdArg
  rw [BitVec.extractLsb'_append_eq_right]

/-- A command word is its two fields (R80). -/
theorem cmdOp_append_cmdArg (cw : CmdWord) : cmdOp cw ++ cmdArg cw = cw := by
  unfold cmdOp cmdArg
  apply BitVec.eq_of_toNat_eq
  have := cw.isLt
  rw [Machine.append_toNat]
  simp [BitVec.extractLsb'_toNat, Nat.shiftRight_eq_div_pow]
  omega

theorem seqPhase_append (a : BitVec 4) (b : BitVec 6) : seqPhase (a ++ b) = a := by
  unfold seqPhase
  rw [BitVec.extractLsb'_append_eq_left]

theorem seqT_append (a : BitVec 4) (b : BitVec 6) : seqT (a ++ b) = b := by
  unfold seqT
  rw [BitVec.extractLsb'_append_eq_right]

/-- Every command word decodes to a command (R84). -/
theorem decodeCmd_isCommand (cw : CmdWord) : (decodeCmd cw).isCommand = true := by
  unfold decodeCmd
  split
  · rfl
  split
  · split <;> rfl
  split
  · rfl
  split
  · rfl
  split <;> rfl

/-- A command is a START, a DATA or of the class ILLEGAL (R84). -/
theorem isCommand_cases (i : Instr) (h : i.isCommand = true) :
    (∃ n, i = .start n) ∨ (∃ b, i = .data b) ∨ i.isIllegal = true := by
  cases i <;> simp [Instr.isCommand] at h <;> simp [Instr.isIllegal]

/-- A command word belongs to a row whose mask and pattern are given field by field, when both fields do (R88). -/
theorem matches_append (m : String) (p q : BitVec 4) (x y : BitVec 64) (op : BitVec 4) (arg : BitVec 64) :
    (OpcodeRow.mk m (p ++ x : CmdWord) (q ++ y)).matches (op ++ arg) =
      (decide (op &&& q = p) && decide (arg &&& y = x)) := by
  have hand : ((op ++ arg : CmdWord) &&& (q ++ y)) = (op &&& q) ++ (arg &&& y) := by
    apply BitVec.eq_of_getLsbD_eq
    intro i _
    simp only [BitVec.getLsbD_and, BitVec.getLsbD_append]
    split <;> rfl
  have hinj : ∀ (a c : BitVec 4) (b d : BitVec 64), ((a ++ b : CmdWord) = c ++ d) ↔ a = c ∧ b = d := by
    intro a c b d
    constructor
    · intro h
      have h1 := congrArg cmdOp h
      have h2 := congrArg cmdArg h
      rw [cmdOp_append, cmdOp_append] at h1
      rw [cmdArg_append, cmdArg_append] at h2
      exact ⟨h1, h2⟩
    · rintro ⟨rfl, rfl⟩
      rfl
  rw [Bool.eq_iff_iff]
  simp only [OpcodeRow.matches, beq_iff_eq, Bool.and_eq_true, decide_eq_true_eq, hand]
  exact hinj _ _ _ _

end Sys2Proof
end

