-- ==== Sys2Proof/Laws/Step.lean ====
section
/-! SUPPORT. What a step can do, said once, and how runs compose. -/

namespace Sys2Proof.Machine

/-- Everything a step can be: the reset event; the enabled micro-operation; the acceptance of a presented command; waiting. -/
theorem step_cases (s : State) :
    (∃ rest, s.host = .reset :: rest ∧ step s = .next { s.applyReset with host := rest }) ∨
    (∃ i, microOp s = some i ∧ (∀ rest, s.host ≠ .reset :: rest) ∧ step s = exec i { s with host := hostWaits s.host }) ∨
    (∃ cw, microOp s = none ∧ presented s.host = some cw ∧
      step s = exec (decodeCmd cw) { s with host := s.host.tail }) ∨
    (microOp s = none ∧ presented s.host = none ∧ (∀ rest, s.host ≠ .reset :: rest) ∧
      step s = .next { s with host := s.host.tail }) := by
  rcases hh : s.host with _ | ⟨e, rest⟩
  · cases hm : microOp s <;> simp [step, nextAction, hh, hm, presented]
  · cases e <;> cases hm : microOp s <;> simp [step, nextAction, hh, hm, presented]

/-- A micro-operation is enabled exactly when the port accepts nothing (R190). -/
theorem microOp_isSome (s : State) : (microOp s).isSome = !s.cmdReady := by
  cases h : s.phase <;> simp [microOp, State.cmdReady, h]
  cases s.padding <;> simp

/-! What `exec` answers. -/

theorem append_extract_low (t : BitVec 6) (h : t.toNat < 16) : 0b00#2 ++ t.extractLsb' 0 4 = t := by
  apply BitVec.eq_of_toNat_eq
  rw [append_toNat]
  simp [BitVec.extractLsb'_toNat]
  omega

/-- An enabled micro-operation answers a next state, whatever the host does. -/
theorem exec_microOp (s : State) (i : Instr) (h : microOp s = some i) (q : List HostEvent) :
    ∃ t, exec i { s with host := q } = .next t := by
  cases hp : s.phase <;> simp [microOp, hp] at h
  case fill =>
    obtain ⟨h1, rfl⟩ := h
    simp [exec, execPadbyte, State.padding] at h1 ⊢
    exact h1
  case sched =>
    subst h
    unfold schedOp
    split
    · simp [exec, execLoadw, append_extract_low _ ‹_›]
    split
    · have : 0b01#2 ++ s.t.extractLsb' 0 4 = s.t := by
        apply BitVec.eq_of_toNat_eq
        rw [append_toNat]
        simp [BitVec.extractLsb'_toNat]
        omega
      simp [exec, execExpandLow, this]
    · have : 0b1#1 ++ s.t.extractLsb' 0 5 = s.t := by
        apply BitVec.eq_of_toNat_eq
        have := s.t.isLt
        rw [append_toNat]
        simp [BitVec.extractLsb'_toNat]
        omega
      simp [exec, execExpandHigh, this]
  all_goals (subst h; simp [exec, execInitwv, execRound, execFold, execEmit])

/-- A command answers a next state in every state. -/
theorem exec_command (i : Instr) (s : State) (h : i.isCommand = true) : ∃ t, exec i s = .next t := by
  cases i <;> simp [Instr.isCommand] at h <;> simp [exec, execStart, execData, execIllegalData, execIllegalOp0,
    execIllegalOp3, execIllegalOp4to7, execIllegalOp8toF]

/-- The five rows of ILLEGAL do the same at the port. -/
theorem exec_isIllegal (i : Instr) (s : State) (h : i.isIllegal = true) : exec i s = atPort s (acceptIllegal s) := by
  cases i <;> first | rfl | simp [Instr.isIllegal] at h

theorem acceptStart_host (n : BitVec 64) (s : State) (q : List HostEvent) :
    acceptStart n { s with host := q } = { acceptStart n s with host := q } := by
  unfold acceptStart
  split
  · simp [*, State.raise]
  split <;> simp [*, State.raise, State.beginMessage]

theorem acceptData_host (b : Byte) (s : State) (q : List HostEvent) :
    acceptData b { s with host := q } = { acceptData b s with host := q } := by
  unfold acceptData
  split
  · simp [*]
  split <;> simp [*, State.raise, State.placeByte]

theorem acceptIllegal_host (s : State) (q : List HostEvent) :
    acceptIllegal { s with host := q } = { acceptIllegal s with host := q } := by
  unfold acceptIllegal
  split <;> simp [*, State.raise]

/-! The effect of a step. -/

/-- The state after a step, case by case: the reset event, each micro-operation's effect, each class of accepted command, or
waiting.  Proofs about a step start here. -/
theorem step_effect (s t : State) (h : step s = .next t) :
    (∃ rest, s.host = .reset :: rest ∧ t = { s.applyReset with host := rest }) ∨
    (∀ rest, s.host ≠ .reset :: rest) ∧
    ((s.phase = .fill ∧ s.size.toNat ≤ s.p.toNat ∧
        t = { s.placeByte (padByte s.p.toNat s.size) with host := hostWaits s.host }) ∨
      (s.phase = .sched ∧ s.t.toNat < 16 ∧
        t = { s.loadWord (s.t.extractLsb' 0 4) with host := hostWaits s.host }) ∨
      (s.phase = .sched ∧ 16 ≤ s.t.toNat ∧ t = { s.expand s.t with host := hostWaits s.host }) ∨
      (s.phase = .init ∧ t = { s.loadVars with host := hostWaits s.host }) ∨
      (s.phase = .rounds ∧ t = { s.mixRound s.t with host := hostWaits s.host }) ∨
      (s.phase = .fold ∧ t = { s.foldVars with host := hostWaits s.host }) ∨
      (s.phase = .emit ∧ t = { s.writeOut with host := hostWaits s.host }) ∨
      (s.cmdReady = true ∧ ∃ cw, presented s.host = some cw ∧
        ((∃ n, decodeCmd cw = .start n ∧ t = { acceptStart n s with host := s.host.tail }) ∨
          (∃ b, decodeCmd cw = .data b ∧ t = { acceptData b s with host := s.host.tail }) ∨
          ((decodeCmd cw).isIllegal = true ∧ t = { acceptIllegal s with host := s.host.tail }))) ∨
      (s.cmdReady = true ∧ presented s.host = none ∧ t = { s with host := s.host.tail })) := by
  rcases step_cases s with ⟨r, hr, h'⟩ | ⟨i, hm, hr, h'⟩ | ⟨cw, hm, hp, h'⟩ | ⟨hm, hp, hr, h'⟩
  · left; rw [h] at h'; exact ⟨r, hr, Host.Outcome.next.inj h'⟩
  · right; refine ⟨hr, ?_⟩
    rw [h] at h'
    have h' := h'.symm
    cases hp : s.phase <;> simp [microOp, hp] at hm
    case fill =>
      left
      obtain ⟨h1, rfl⟩ := hm
      simp [State.padding] at h1
      simp [exec, execPadbyte] at h'
      exact ⟨rfl, h1, h'.2⟩
    case sched =>
      subst hm
      unfold schedOp at h'
      split at h'
      · right; left; simp [exec, execLoadw] at h'; exact ⟨rfl, ‹_›, h'.2⟩
      split at h'
      · right; right; left; simp [exec, execExpandLow] at h'; exact ⟨rfl, by omega, h'.2⟩
      · right; right; left; simp [exec, execExpandHigh] at h'; exact ⟨rfl, by omega, h'.2⟩
    case init =>
      subst hm; simp [exec, execInitwv] at h'
      iterate 3 right
      left; exact ⟨rfl, h'.2⟩
    case rounds =>
      subst hm; simp [exec, execRound] at h'
      iterate 4 right
      left; exact ⟨rfl, h'.2⟩
    case fold =>
      subst hm; simp [exec, execFold] at h'
      iterate 5 right
      left; exact ⟨rfl, h'.2⟩
    case emit =>
      subst hm; simp [exec, execEmit] at h'
      iterate 6 right
      left; exact ⟨rfl, h'.2⟩
  · have hr : s.cmdReady = true := by have := microOp_isSome s; rw [hm] at this; simpa using this
    right
    refine ⟨by intro rest hh; simp [hh, presented] at hp, ?_⟩
    iterate 7 right
    left
    refine ⟨hr, cw, hp, ?_⟩
    rw [h] at h'; have h' := h'.symm
    have hr' : ({ s with host := s.host.tail } : State).cmdReady = true := hr
    rcases isCommand_cases _ (decodeCmd_isCommand cw) with ⟨n, hn⟩ | ⟨b, hb⟩ | hi
    · left
      rw [hn] at h'
      simp only [exec, execStart, atPort_eq_next, hr', if_true, acceptStart_host] at h'
      exact ⟨n, hn, h'⟩
    · right; left
      rw [hb] at h'
      simp only [exec, execData, atPort_eq_next, hr', if_true, acceptData_host] at h'
      exact ⟨b, hb, h'⟩
    · right; right
      rw [exec_isIllegal _ _ hi] at h'
      simp only [atPort_eq_next, hr', if_true, acceptIllegal_host] at h'
      exact ⟨hi, h'⟩
  · have hrr : s.cmdReady = true := by have := microOp_isSome s; rw [hm] at this; simpa using this
    right; refine ⟨hr, ?_⟩
    iterate 8 right
    rw [h] at h'; exact ⟨hrr, hp, Host.Outcome.next.inj h'⟩

/-! Runs. -/

theorem run_zero (s : State) : Sys2Proof.core.run 0 s = .next s := rfl

/-- One more step at the front, for any machine. -/
theorem core_run_succ (M : Host.Core) (n : Nat) (s t : M.State) (h : M.step s = .next t) :
    M.run (n + 1) s = M.run n t := by
  rw [Host.Core.run, h]

theorem core_run_succ_inv (M : Host.Core) (n : Nat) (s t : M.State) (h : M.run (n + 1) s = .next t) :
    ∃ u, M.step s = .next u ∧ M.run n u = .next t := by
  rw [Host.Core.run] at h
  cases hs : M.step s with
  | next u => rw [hs] at h; exact ⟨u, rfl, h⟩
  | fault r => rw [hs] at h; cases h
  | refused r => rw [hs] at h; cases h

theorem core_run_add (M : Host.Core) (m n : Nat) (s t : M.State) (h : M.run m s = .next t) :
    M.run (m + n) s = M.run n t := by
  induction m generalizing s with
  | zero => rw [Host.Core.run] at h; cases h; rw [Nat.zero_add]
  | succ m ih =>
    obtain ⟨u, hu, hr⟩ := core_run_succ_inv M m s t h
    rw [Nat.add_right_comm, core_run_succ M _ _ _ hu]
    exact ih u hr

theorem run_succ (n : Nat) (s t : State) (h : step s = .next t) :
    Sys2Proof.core.run (n + 1) s = Sys2Proof.core.run n t :=
  core_run_succ Sys2Proof.core n s t h

/-- A run of one step or more that answers a next state begins with a step that does. -/
theorem run_succ_inv (n : Nat) (s t : State) (h : Sys2Proof.core.run (n + 1) s = .next t) :
    ∃ u, step s = .next u ∧ Sys2Proof.core.run n u = .next t :=
  core_run_succ_inv Sys2Proof.core n s t h

/-- A run of `m + n` steps is a run of `m` and then a run of `n`. -/
theorem run_add (m n : Nat) (s t : State) (h : Sys2Proof.core.run m s = .next t) :
    Sys2Proof.core.run (m + n) s = Sys2Proof.core.run n t :=
  core_run_add Sys2Proof.core m n s t h

end Sys2Proof.Machine
end

