-- ==== Sys2Proof/Laws/Control.lean ====
section
/-! SUPPORT. States that agree in their control (R269): what the agreement gives at once, and what the core looks at of two
hosts that act the same but for the bytes of DATA. -/

namespace Sys2Proof.Machine

theorem HostEvent.SameButByte.refl (e : HostEvent) : e.SameButByte e := .inl rfl

theorem State.SameControl.refl (s : State) : s.SameControl s :=
  ⟨rfl, rfl, rfl, rfl, rfl, rfl, List.forall₂_same.2 fun e _ => .refl e⟩

theorem State.SameControl.cmdReady_eq {s s' : State} (h : s.SameControl s') : s.cmdReady = s'.cmdReady := by
  simp [State.cmdReady, State.padding, h.phase_eq, h.size_eq, h.p_eq]

/-- DATA words decode to DATA, whatever their byte (R82). -/
theorem decodeCmd_dataWord : ∀ b : Byte, decodeCmd (dataWord b) = .data b := by decide

/-- A held command still waits, and everything else is over, in both hosts alike. -/
theorem hostWaits_sameButByte {q q' : List HostEvent} (h : List.Forall₂ HostEvent.SameButByte q q') :
    List.Forall₂ HostEvent.SameButByte (hostWaits q) (hostWaits q') := by
  cases h with
  | nil => exact .nil
  | @cons e e' r r' he hr =>
    obtain rfl | ⟨x, y, ⟨rfl, rfl⟩ | ⟨rfl, rfl⟩⟩ := he
    · cases e <;> first | exact hr | exact .cons (.inl rfl) hr
    · exact .cons (.inr ⟨x, y, .inl ⟨rfl, rfl⟩⟩) hr
    · exact hr

/-- Both hosts present a word or neither does, and the words decode to the same instruction or to two DATA. -/
theorem presented_sameButByte {q q' : List HostEvent} (h : List.Forall₂ HostEvent.SameButByte q q') :
    presented q = presented q' ∨
      ∃ x y : Byte, presented q = some (dataWord x) ∧ presented q' = some (dataWord y) := by
  cases h with
  | nil => exact .inl rfl
  | @cons e e' r r' he hr =>
    obtain rfl | ⟨x, y, ⟨rfl, rfl⟩ | ⟨rfl, rfl⟩⟩ := he
    · cases e <;> exact .inl rfl
    · exact .inr ⟨x, y, rfl, rfl⟩
    · exact .inr ⟨x, y, rfl, rfl⟩

end Sys2Proof.Machine
end

