-- ==== Sys2Proof/Laws/PerInstr.lean ====
section
/-! SUPPORT. RowFits, a statement about every instruction as syntax: the word a well-formed instruction is encoded to belongs to
the instruction's own row of the opcode table (R84, R86, R88). -/

namespace Sys2Proof.Laws

/-- The word of a well-formed instruction agrees with its row on the bits of the row's mask. -/
def RowFits.Statement (i : Instr) : Prop :=
  i.wf = true →
    match encode i with
    | .cmd cw => ∃ r, cmdRows[i.rowIndex]? = some r ∧ r.matches cw = true
    | .seq sw => ∃ r, seqRows[i.rowIndex]? = some r ∧ r.matches sw = true

theorem RowFits.start (size : BitVec 64) : RowFits.Statement (.start size) := fun _ =>
  ⟨_, rfl, (matches_append "START" 0x1#4 0xF#4 0#64 0#64 0x1#4 size).trans (by simp)⟩

theorem RowFits.data (byte : Byte) : RowFits.Statement (.data byte) := fun _ =>
  ⟨_, rfl, (matches_append "DATA" 0x2#4 0xF#4 0#64 0xFFFFFFFFFFFFFF00#64 0x2#4 (byte.setWidth 64)).trans (by
    revert byte
    decide)⟩

theorem RowFits.illegalData (arg : BitVec 64) : RowFits.Statement (.illegalData arg) := fun _ =>
  ⟨_, rfl, (matches_append "ILLEGAL" 0x2#4 0xF#4 0#64 0#64 0x2#4 arg).trans (by simp)⟩

theorem RowFits.illegalOp0 (arg : BitVec 64) : RowFits.Statement (.illegalOp0 arg) := fun _ =>
  ⟨_, rfl, (matches_append "ILLEGAL" 0x0#4 0xF#4 0#64 0#64 0x0#4 arg).trans (by simp)⟩

theorem RowFits.illegalOp3 (arg : BitVec 64) : RowFits.Statement (.illegalOp3 arg) := fun _ =>
  ⟨_, rfl, (matches_append "ILLEGAL" 0x3#4 0xF#4 0#64 0#64 0x3#4 arg).trans (by simp)⟩

theorem RowFits.illegalOp4to7 (op10 : BitVec 2) (arg : BitVec 64) : RowFits.Statement (.illegalOp4to7 op10 arg) :=
  fun _ => ⟨_, rfl, (matches_append "ILLEGAL" 0x4#4 0xC#4 0#64 0#64 (0b01#2 ++ op10) arg).trans (by
    have : ∀ op : BitVec 2, (0b01#2 ++ op : BitVec 4) &&& 0xC#4 = 0x4#4 := by decide
    simp [this op10])⟩

theorem RowFits.illegalOp8toF (op20 : BitVec 3) (arg : BitVec 64) : RowFits.Statement (.illegalOp8toF op20 arg) :=
  fun _ => ⟨_, rfl, (matches_append "ILLEGAL" 0x8#4 0x8#4 0#64 0#64 (0b1#1 ++ op20) arg).trans (by
    have : ∀ op : BitVec 3, (0b1#1 ++ op : BitVec 4) &&& 0x8#4 = 0x8#4 := by decide
    simp [this op20])⟩

theorem RowFits.padbyte : RowFits.Statement .padbyte := fun _ => ⟨_, rfl, by decide⟩

theorem RowFits.loadw (t : BitVec 4) : RowFits.Statement (.loadw t) := fun _ => ⟨_, rfl, by revert t; decide⟩

theorem RowFits.expandLow (k : BitVec 4) : RowFits.Statement (.expandLow k) := fun _ => ⟨_, rfl, by revert k; decide⟩

theorem RowFits.expandHigh (k : BitVec 5) : RowFits.Statement (.expandHigh k) := fun _ => ⟨_, rfl, by revert k; decide⟩

theorem RowFits.initwv : RowFits.Statement .initwv := fun _ => ⟨_, rfl, by decide⟩

theorem RowFits.round (t : BitVec 6) : RowFits.Statement (.round t) := fun _ => ⟨_, rfl, by revert t; decide⟩

theorem RowFits.fold : RowFits.Statement .fold := fun _ => ⟨_, rfl, by decide⟩

theorem RowFits.emit : RowFits.Statement .emit := fun _ => ⟨_, rfl, by decide⟩

end Sys2Proof.Laws
end

