-- ==== Sys2Proof/Laws/Reference.lean ====
section
/-! SUPPORT. The schedule of a block word by word, and the recurrence EXPAND evaluates. -/

namespace Sys2Proof.Machine

theorem schedulePrefix_length (b : Vector Byte 64) (n : Nat) : (schedulePrefix b n).length = n := by
  induction n with
  | zero => rfl
  | succ n ih => simp [schedulePrefix, ih]

/-- A longer prefix does not change an earlier word. -/
theorem schedulePrefix_getD (b : Vector Byte 64) (m n : Nat) (h : n < m) :
    (schedulePrefix b m).getD n 0#32 = scheduleNext b (schedulePrefix b n) := by
  induction m with
  | zero => omega
  | succ m ih =>
    rw [schedulePrefix]
    rcases Nat.lt_succ_iff_lt_or_eq.1 h with h | rfl
    · rw [List.getD_append _ _ _ _ (by rw [schedulePrefix_length]; exact h)]
      exact ih h
    · rw [List.getD_append_right _ _ _ _ (by rw [schedulePrefix_length])]
      simp [schedulePrefix_length]

theorem schedule_getElem (b : Vector Byte 64) (n : Nat) (h : n < 64) :
    (schedule b)[n] = scheduleNext b (schedulePrefix b n) := by
  rw [schedule, Vector.getElem_ofFn]
  exact schedulePrefix_getD b 64 n h

/-- The first 16 words are the block's (R134). -/
theorem schedule_low (b : Vector Byte 64) (n : Nat) (h : n < 16) :
    (schedule b)[n] = be32 b[4 * n] b[4 * n + 1] b[4 * n + 2] b[4 * n + 3] := by
  rw [schedule_getElem b n (by omega), scheduleNext]
  simp only [schedulePrefix_length, dif_pos h]

/-- The other 48 satisfy the recurrence (R134). -/
theorem schedule_high (b : Vector Byte 64) (n : Nat) (h1 : 16 ≤ n) (h2 : n < 64) :
    (schedule b)[n] =
      sigma1 (schedule b)[n - 2] + (schedule b)[n - 7] + sigma0 (schedule b)[n - 15] + (schedule b)[n - 16] := by
  rw [schedule_getElem b n h2, scheduleNext]
  simp only [schedulePrefix_length, dif_neg (show ¬ n < 16 by omega)]
  rw [schedulePrefix_getD b n (n - 2) (by omega), schedulePrefix_getD b n (n - 7) (by omega),
    schedulePrefix_getD b n (n - 15) (by omega), schedulePrefix_getD b n (n - 16) (by omega)]
  simp only [schedule_getElem b _ (show n - 2 < 64 by omega), schedule_getElem b _ (show n - 7 < 64 by omega),
    schedule_getElem b _ (show n - 15 < 64 by omega), schedule_getElem b _ (show n - 16 < 64 by omega)]

/-- The word EXPAND stores, with its indices as numbers (R133). -/
theorem expandWord_eq (W : Vector Word 64) (t : BitVec 6) (h : 16 ≤ t.toNat) :
    expandWord W t = sigma1 W[t.toNat - 2] + W[t.toNat - 7] + sigma0 W[t.toNat - 15] + W[t.toNat - 16] := by
  have e : ∀ c : Nat, c ≤ 16 → (t - BitVec.ofNat 6 c).toNat = t.toNat - c := by
    intro c hc
    have := t.isLt
    simp
    omega
  simp only [expandWord, show (2 : BitVec 6) = BitVec.ofNat 6 2 from rfl, show (7 : BitVec 6) = BitVec.ofNat 6 7 from rfl,
    show (15 : BitVec 6) = BitVec.ofNat 6 15 from rfl, show (16 : BitVec 6) = BitVec.ofNat 6 16 from rfl,
    e 2 (by omega), e 7 (by omega), e 15 (by omega), e 16 (by omega)]

end Sys2Proof.Machine
end

