-- ==== Sys2Proof/Tests/Slice0.lean ====
section
/-! SUPPORT. Small tests of the model: expected values are those of spec/95_test_vectors.md and of the worked examples of the
rules, and for every statement with hypotheses a witness that meets them. -/

namespace Sys2Proof.Tests

open Sys2Proof.Machine

/-- A state in a phase with the counters given, everything else as after reset. -/
def inPhase (ph : Phase) (p : BitVec 62) (size : BitVec 61) (t : BitVec 6) : State :=
  { State.reset with phase := ph, p := p, size := size, t := t }

/-- A state in ERROR with a code. -/
def inError (e : Err) : State := { State.reset with phase := .error, err := e }

/-- A state in DONE with a valid digest, of the hash state it holds. -/
def inDone : State := { State.reset with phase := .done, digestValid := true, p := 64#62, D := digestOf State.reset.H }

/-- The next state, where the outcome is one. -/
def nextOf : Host.Outcome State Fault Refusal → Option State
  | .next s => some s
  | .fault _ => none
  | .refused _ => none

/-! ### Well-formedness and decoding -/

/-- The one check of WellFormed refuses an `illegalData` whose word is a DATA (R84), and accepts the smallest other. -/
theorem test_wf_refuses_illegalData_that_is_data :
    (Instr.illegalData 0x61#64).wf = false ∧ (Instr.illegalData 0x100#64).wf = true := by decide

/-- Command words written out from R80 to R84, by the table of V17. -/
theorem test_decode_commands :
    decodeCmd 0x12000000000000000#68 = .start 0x2000000000000000#64 ∧
    decodeCmd 0x20000000000000000#68 = .data 0x00#8 ∧
    decodeCmd 0x200000000000000ff#68 = .data 0xff#8 ∧
    decodeCmd 0x20000000000000100#68 = .illegalData 0x100#64 ∧
    decodeCmd 0x0ffffffffffffffff#68 = .illegalOp0 0xffffffffffffffff#64 ∧
    decodeCmd 0x30000000000000000#68 = .illegalOp3 0#64 ∧
    decodeCmd 0x70000000000000001#68 = .illegalOp4to7 3#2 1#64 ∧
    decodeCmd 0x80000000000000002#68 = .illegalOp8toF 0#3 2#64 := by decide

/-- Sequencer words written out from R86: phase, then `t`. -/
theorem test_decode_sequencer_words :
    decodeSeq 0b0010000101#10 = .ok (.loadw 5#4) ∧
    decodeSeq 0b0010011111#10 = .ok (.expandLow 15#4) ∧
    decodeSeq 0b0010100000#10 = .ok (.expandHigh 0#5) ∧
    decodeSeq 0b0100000001#10 = .ok (.round 1#6) ∧
    decodeSeq 0b0001000001#10 = .error (.unreachable 0b0001000001#10) ∧
    decodeSeq 0b0000000000#10 = .error (.waitsForHost 0#10) := by decide

/-- The opcode table's numbering: the first row's match word with `size = 3`, DATA, and LOADW 5. -/
theorem test_decodeTableWord :
    decodeTableWord 72 0x10000000000000003 = some (.start 3#64) ∧
    decodeTableWord 72 0x20000000000000061 = some (.data 0x61#8) ∧
    decodeTableWord 16 0x85 = some (.loadw 5#4) ∧
    decodeTableWord 72 (2 ^ 68) = none := by decide

/-- `withFetchWord` makes the next step run the word, after reset (R192) and for a micro-operation (R154). -/
theorem test_withFetchWord_runs :
    (nextOf (step (State.reset.withFetchWord 72 0x10000000000000003))).map (fun s => (s.phase, s.size)) =
      some (.fill, 3#61) ∧
    (nextOf (step (State.reset.withFetchWord 16 0xC0))).map (·.phase) = some .rounds := by decide

/-! ### Functions of the data path (V0, V10 to V14) -/

/-- V11: addition wraps, rotation and shift, big-endian. -/
theorem test_primitives :
    (0xbb67ae85#32 + 0xd39a2165#32 : Word) = 0x8f01cfea#32 ∧
    rotr 0x12345678#32 8 = 0x78123456#32 ∧ rotr 0x80000001#32 31 = 0x00000003#32 ∧
    shr 0x80000000#32 3 = 0x10000000#32 ∧ be32 0x61#8 0x62#8 0x63#8 0x80#8 = 0x61626380#32 := by decide

/-- V12. -/
theorem test_mixing_functions :
    sigma0 0x12345678#32 = 0xe7fce6ee#32 ∧ sigma1 0x12345678#32 = 0xa1f78649#32 ∧
    bigSigma0 0x12345678#32 = 0x66146474#32 ∧ bigSigma1 0x12345678#32 = 0x3561abda#32 ∧
    sigma0 0xffffffff#32 = 0x1fffffff#32 ∧ sigma1 0xffffffff#32 = 0x003fffff#32 := by decide

/-- V13. -/
theorem test_ch_maj :
    ch 0x6a09e667#32 0xbb67ae85#32 0x3c6ef372#32 = 0x3e67b715#32 ∧
    maj 0x6a09e667#32 0xbb67ae85#32 0x3c6ef372#32 = 0x3a6fe667#32 ∧
    ch 0xf0f0f0f0#32 0xaaaaaaaa#32 0x55555555#32 = 0xa5a5a5a5#32 := by decide

/-- V0: the sum and the exclusive or of all 64 round constants. -/
theorem test_rom_checksums :
    (List.range 64).foldl (fun acc t => acc + K (BitVec.ofNat 6 t)) 0#32 = 0x941d1755#32 ∧
    (List.range 64).foldl (fun acc t => acc ^^^ K (BitVec.ofNat 6 t)) 0#32 = 0x95c49cf5#32 ∧
    IV.toList.foldl (· + ·) 0#32 = 0x6ea8df67#32 := by decide +kernel

/-- V10: `k`, `Z`, `P`, `N` at sizes 55, 56 and the largest. -/
theorem test_padding_quantities :
    (padK 55, padZ 55, padP 55, padN 55) = (7, 0, 64, 1) ∧
    (padK 56, padZ 56, padP 56, padN 56) = (511, 63, 128, 2) ∧
    (padK (2 ^ 61 - 1), padZ (2 ^ 61 - 1), padP (2 ^ 61 - 1), padN (2 ^ 61 - 1)) =
      (455, 56, 2 ^ 61 + 64, 2 ^ 55 + 1) := by decide

/-- V14: the terminator, a zero byte, and the length bytes at size 55 and at the largest size. -/
theorem test_padByte :
    padByte 55 55#61 = 0x80#8 ∧ padByte 55 3#61 = 0x00#8 ∧ padByte 62 55#61 = 0x01#8 ∧ padByte 63 55#61 = 0xb8#8 ∧
    padByte (2 ^ 61 + 56) 0x1fffffffffffffff#61 = 0xff#8 ∧
    padByte (2 ^ 61 + 63) 0x1fffffffffffffff#61 = 0xf8#8 := by decide

/-! ### Commands (V17, V20) -/

/-- V17: START 3 in ERROR clears the error and begins. -/
theorem test_start_begins :
    (nextOf (exec (.start 3#64) (inError .badCmd))).map (fun s => (s.phase, s.err, s.size, s.p, s.H[7])) =
      some (.fill, .none, 3#61, 0#62, 0x5be0cd19#32) := by decide

/-- V20: `2^63` is rejected although its low 61 bits are 0; the size is not written. -/
theorem test_start_too_large :
    (nextOf (exec (.start 0x8000000000000000#64) (inPhase .done 64#62 3#61 0#6))).map
      (fun s => (s.phase, s.err, s.size, s.digestValid)) = some (.error, .inputTooLarge, 3#61, false) := by decide

/-- V17: the byte that fills the block. -/
theorem test_data_fills_block :
    (nextOf (exec (.data 0x3f#8) (inPhase .fill 63#62 100#61 0#6))).map (fun s => (s.phase, s.p, s.B[63], s.B[62])) =
      some (.sched, 64#62, 0x3f#8, 0#8) := by decide

/-- V17: the last byte of the message lowers `cmd_ready` and stays in FILL. -/
theorem test_data_last_byte :
    (nextOf (exec (.data 0x63#8) (inPhase .fill 2#62 3#61 0#6))).map (fun s => (s.phase, s.p, s.B[2], s.cmdReady)) =
      some (.fill, 3#62, 0x63#8, false) := by decide

/-- V17: `op = 2` with a high bit set in FILL. -/
theorem test_illegalData :
    (nextOf (exec (.illegalData 0x100#64) (inPhase .fill 1#62 3#61 0#6))).map (fun s => (s.phase, s.err, s.p)) =
      some (.error, .badCmd, 1#62) := by decide

/-- V17: the all-zero word in IDLE. -/
theorem test_illegalOp0 :
    (nextOf (exec (.illegalOp0 0#64) State.reset)).map (fun s => (s.phase, s.err)) = some (.error, .badCmd) := by decide

/-- R195: an ILLEGAL word in DONE; the digest is lost. -/
theorem test_illegalOp3 :
    (nextOf (exec (.illegalOp3 3#64) inDone)).map (fun s => (s.phase, s.err, s.digest)) =
      some (.error, .badCmd, none) := by decide

/-- R34, R191: not accepted in ROUNDS. -/
theorem test_illegalOp4to7_waits :
    (nextOf (exec (.illegalOp4to7 1#2 0#64) (inPhase .rounds 64#62 3#61 9#6))).map (fun s => (s.phase, s.err, s.t)) =
      some (.rounds, .none, 9#6) := by decide

/-- V17: discarded in ERROR, the code of the first error stays. -/
theorem test_illegalOp8toF_discarded :
    (nextOf (exec (.illegalOp8toF 7#3 0xffffffffffffffff#64) (inError .inputTooLarge))).map
      (fun s => (s.phase, s.err)) = some (.error, .inputTooLarge) := by decide

/-! ### Micro-operations (V14 to V16) -/

/-- V14: the last padding byte of "abc" completes the block. -/
theorem test_padbyte_completes :
    (nextOf (exec .padbyte (inPhase .fill 63#62 3#61 0#6))).map (fun s => (s.phase, s.p, s.B[63])) =
      some (.sched, 64#62, 0x18#8) := by decide

/-- V14: the first byte of block 2 at size 56. -/
theorem test_padbyte_block2 :
    (nextOf (exec .padbyte { inPhase .fill 64#62 56#61 0#6 with B := Vector.replicate 64 0xff#8 })).map
      (fun s => (s.phase, s.p, s.B[0], s.B[1])) = some (.fill, 65#62, 0x00#8, 0xff#8) := by decide

/-- V14: at `p < size` the core waits for DATA and PADBYTE is not enabled. -/
theorem test_padbyte_not_enabled : microOp (inPhase .fill 2#62 3#61 0#6) = none := by decide

/-- V15: LOADW 0 of "abc", big-endian. -/
theorem test_loadw_first :
    (nextOf (exec (.loadw 0#4) { inPhase .sched 64#62 3#61 0#6 with
      B := ((((Vector.replicate 64 0#8).set 0 0x61#8).set 1 0x62#8).set 2 0x63#8).set 3 0x80#8 })).map
      (fun s => (s.phase, s.t, s.W[0])) = some (.sched, 1#6, 0x61626380#32) := by decide

/-- V15: LOADW 15 of "abc" leaves `t = 16` and the phase SCHED. -/
theorem test_loadw_last :
    (nextOf (exec (.loadw 15#4) { inPhase .sched 64#62 3#61 15#6 with B := (Vector.replicate 64 0#8).set 63 0x18#8 })).map
      (fun s => (s.phase, s.t, s.W[15])) = some (.sched, 16#6, 0x00000018#32) := by decide

/-- V15: EXPAND 31 of "abc". -/
theorem test_expandLow :
    (nextOf (exec (.expandLow 15#4) { inPhase .sched 64#62 3#61 31#6 with
      W := ((((Vector.replicate 64 0#32).set 29 0xec8726cb#32).set 24 0xc8215c1a#32).set 16 0x61626380#32).set 15
        0x00000018#32 })).map
      (fun s => (s.phase, s.t, s.W[31])) = some (.sched, 32#6, 0xd3b7973b#32) := by decide

/-- V15: EXPAND 63 of "abc" ends the schedule. -/
theorem test_expandHigh :
    (nextOf (exec (.expandHigh 31#5) { inPhase .sched 64#62 3#61 63#6 with
      W := ((((Vector.replicate 64 0#32).set 61 0x668b2ff8#32).set 56 0xef57b9cd#32).set 48 0xfb3e89cb#32).set 47
        0x065c43da#32 })).map
      (fun s => (s.phase, s.t, s.W[63])) = some (.init, 0#6, 0x12b1edeb#32) := by decide

/-- V16: the working variables of block 1. -/
theorem test_initwv :
    (nextOf (exec .initwv { inPhase .init 64#62 3#61 0#6 with H := IV })).map (fun s => (s.phase, s.wv)) =
      some (.rounds, ⟨0x6a09e667#32, 0xbb67ae85#32, 0x3c6ef372#32, 0xa54ff53a#32, 0x510e527f#32, 0x9b05688c#32,
        0x1f83d9ab#32, 0x5be0cd19#32⟩) := by decide

/-- V16: ROUND 0 of "abc"; the update is simultaneous. -/
theorem test_round_first :
    (nextOf (exec (.round 0#6) { inPhase .rounds 64#62 3#61 0#6 with
      wv := WorkVars.ofHash IV, W := (Vector.replicate 64 0#32).set 0 0x61626380#32 })).map
      (fun s => (s.phase, s.t, s.wv)) =
      some (.rounds, 1#6, ⟨0x5d6aebcd#32, 0x6a09e667#32, 0xbb67ae85#32, 0x3c6ef372#32, 0xfa2a4622#32, 0x510e527f#32,
        0x9b05688c#32, 0x1f83d9ab#32⟩) := by decide

/-- V3: ROUND 63 of "abc" ends the rounds. -/
theorem test_round_last :
    (nextOf (exec (.round 63#6) { inPhase .rounds 64#62 3#61 63#6 with
      wv := ⟨0xd39a2165#32, 0x04d24d6c#32, 0xb85e2ce9#32, 0xb6ae8fff#32, 0xfb121210#32, 0x948d25b6#32, 0x961f4894#32,
        0xb21bad3d#32⟩, W := (Vector.replicate 64 0#32).set 63 0x12b1edeb#32 })).map (fun s => (s.phase, s.t, s.wv)) =
      some (.fold, 0#6, ⟨0x506e3058#32, 0xd39a2165#32, 0x04d24d6c#32, 0xb85e2ce9#32, 0x5ef50f24#32, 0xfb121210#32,
        0x948d25b6#32, 0x961f4894#32⟩) := by decide

/-- The state before the FOLD of "abc" (V16). -/
def abcFold : State :=
  { inPhase .fold 64#62 3#61 0#6 with
    H := IV
    wv := ⟨0x506e3058#32, 0xd39a2165#32, 0x04d24d6c#32, 0xb85e2ce9#32, 0x5ef50f24#32, 0xfb121210#32, 0x948d25b6#32,
      0x961f4894#32⟩ }

/-- V16: FOLD of "abc"; each sum wraps by itself, and block 1 of 1 goes to EMIT. -/
theorem test_fold_last_block :
    (nextOf (exec .fold abcFold)).map (fun s => (s.phase, s.H)) =
      some (.emit, #v[0xba7816bf#32, 0x8f01cfea#32, 0x414140de#32, 0x5dae2223#32, 0xb00361a3#32, 0x96177a9c#32,
        0xb410ff61#32, 0xf20015ad#32]) := by decide

/-- R156: block 1 of 2 (size 56) goes back to FILL. -/
theorem test_fold_more_blocks :
    (nextOf (exec .fold { abcFold with size := 56#61 })).map (fun s => (s.phase, s.p, s.cmdReady)) =
      some (.fill, 64#62, false) := by decide

/-- V2: EMIT of "abc": the digest on the port. -/
theorem test_emit :
    (nextOf (exec .emit { inPhase .emit 64#62 3#61 0#6 with
      H := #v[0xba7816bf#32, 0x8f01cfea#32, 0x414140de#32, 0x5dae2223#32, 0xb00361a3#32, 0x96177a9c#32, 0xb410ff61#32,
        0xf20015ad#32] })).map (fun s => (s.phase, s.D[0], s.D[31], s.digest)) =
      some (.done, 0xba#8, 0xad#8,
        some 0xba7816bf8f01cfea414140de5dae2223b00361a396177a9cb410ff61f20015ad#256) := by decide

/-- R260: a reset in the middle of the rounds. -/
theorem test_reset_event :
    (nextOf (step { inPhase .rounds 64#62 3#61 9#6 with host := [.reset, .hold (startWord 0#64)] })).map
      (fun s => (s.phase, s.t, s.err, s.host)) =
      some (.idle, 0#6, .none, [.hold (startWord 0#64)]) := by decide

/-! ### Witnesses: for every statement with hypotheses, a concrete case of each clause that meets all of them -/

/-- A core in SCHED at `t = 5`. -/
def inSched : State := inPhase .sched 64#62 3#61 5#6

/-- A core in FILL that waits for the first of one byte. -/
def inFill : State := inPhase .fill 0#62 1#61 0#6

/-- A core that pads: all three bytes of the message are there. -/
def inPad : State := inPhase .fill 3#62 3#61 0#6

/-- A core whose data registers are what the components compute, before FOLD. -/
def dataFold : State :=
  { inPhase .fold 64#62 3#61 0#6 with
    W := schedule State.reset.B
    wv := roundsUpTo State.reset.H (schedule State.reset.B) 64 }

theorem test_witness_DecodeOfEncodeGivesInstruction :
    (Instr.illegalData 0x100#64).wf = true ∧ (Instr.round 63#6).wf = true := by decide

theorem test_witness_EncodeOfDecodeGivesWord :
    decode (.cmd 0x20000000000000061#68) = .ok (.data 0x61#8) ∧ decode (.seq 0b0010111111#10) = .ok (.expandHigh 31#5) := by
  decide

theorem test_witness_SequencerWordSelectsMicroOp :
    (inSched.phase ≠ .sched → inSched.phase ≠ .rounds → inSched.t = 0#6) ∧
    (inPad.phase ≠ .sched → inPad.phase ≠ .rounds → inPad.t = 0#6) := by decide

/-- No byte, and three. -/
theorem test_witness_HashExpandsToStartAndData :
    ([] : List Byte).length < 2 ^ 64 ∧ [0x61#8, 0x62#8, 0x63#8].length < 2 ^ 64 := by decide

theorem test_witness_StepRunsAcceptedCommand :
    inFill.cmdReady = true ∧ ({ inFill with host := [.hold (dataWord 0#8)] } : State).host = .hold (dataWord 0#8) :: [] ∧
    ({ State.reset with host := [.offer (startWord 3#64)] } : State).host = .offer (startWord 3#64) :: [] ∧
    State.reset.cmdReady = true := by decide

theorem test_witness_StepRunsDecodedMicroOp :
    decodeSeq inPad.seqWord = .ok .padbyte ∧ (inPad.phase = .fill → inPad.size.toNat ≤ inPad.p.toNat) ∧ inPad.host = [] ∧
    decodeSeq inSched.seqWord = .ok (.loadw 5#4) ∧ (inSched.phase = .fill → inSched.size.toNat ≤ inSched.p.toNat) ∧
    ({ inSched with host := [.hold 0#68] } : State).host = .hold 0#68 :: [] ∧
    ({ inSched with host := [.offer 0#68] } : State).host = .offer 0#68 :: [] ∧
    ({ inSched with host := [.idle] } : State).host = .idle :: [] := by decide

theorem test_witness_WaitingCoreChangesNothing :
    inFill.cmdReady = true ∧ inFill.host = [] ∧ ({ inFill with host := [.idle] } : State).host = .idle :: [] := by decide

theorem test_witness_BusyCoreIgnoresPort :
    inSched.cmdReady = false ∧ ∀ rest, [HostEvent.hold (startWord 0#64)] ≠ .reset :: rest := by
  refine ⟨by decide, ?_⟩
  intro rest h
  cases h

theorem test_witness_StartBeginsMessage :
    State.reset.phase = .idle ∧ inDone.phase = .done ∧ (inError .badCmd).phase = .error ∧
    (0#64).toNat < 2 ^ 61 ∧ (0x1fffffffffffffff#64).toNat < 2 ^ 61 := by decide

theorem test_witness_StartTooLargeIsRejected :
    State.reset.phase = .idle ∧ inDone.phase = .done ∧ (inError .badCmd).phase = .error ∧
    2 ^ 61 ≤ (0x2000000000000000#64).toNat ∧ 2 ^ 61 ≤ (0xffffffffffffffff#64).toNat := by decide

theorem test_witness_DataStoresNextByte :
    inFill.phase = .fill ∧ inFill.p.toNat < inFill.size.toNat ∧
    (inPhase .fill 63#62 64#61 0#6).phase = .fill ∧
    (inPhase .fill 63#62 64#61 0#6).p.toNat < (inPhase .fill 63#62 64#61 0#6).size.toNat := by decide

theorem test_witness_OutOfProtocolCommandIsBadCmd :
    (Instr.illegalOp0 0#64).isIllegal = true ∧ (Instr.illegalData 0x100#64).isIllegal = true ∧
    (Instr.illegalOp3 0#64).isIllegal = true ∧ (Instr.illegalOp4to7 0#2 0#64).isIllegal = true ∧
    (Instr.illegalOp8toF 0#3 0#64).isIllegal = true ∧
    State.reset.phase = .idle ∧ inDone.phase = .done ∧ inFill.phase = .fill ∧ inFill.p.toNat < inFill.size.toNat := by
  decide

theorem test_witness_ErrorDiscardsDataAndIllegal :
    (inError .inputTooLarge).phase = .error ∧ (Instr.illegalOp4to7 3#2 0#64).isIllegal = true ∧
    ∃ byte, Instr.data 0x61#8 = .data byte := ⟨rfl, rfl, 0x61#8, rfl⟩

theorem test_witness_CommandWaitsWhileNotReady :
    (Instr.start 3#64).isCommand = true ∧ (Instr.data 0#8).isCommand = true ∧ inSched.cmdReady = false ∧
    inPad.cmdReady = false := by decide

theorem test_witness_StarvedCoreRecoversByTwoStarts :
    ∃ s : State, s.phase = .fill ∧ s.p.toNat < s.size.toNat ∧ (3#64).toNat < 2 ^ 61 ∧
      s.host = .hold (startWord 0#64) :: .hold (startWord 3#64) :: [] :=
  ⟨{ inFill with host := [.hold (startWord 0#64), .hold (startWord 3#64)] }, by decide⟩

/-- The first padding byte, and the last of its block (`p = 63`, `P = 64`). -/
theorem test_witness_PadbytePlacesPaddingByte :
    inPad.phase = .fill ∧ inPad.size.toNat ≤ inPad.p.toNat ∧ inPad.p.toNat < padP inPad.size.toNat ∧
    (inPhase .fill 63#62 3#61 0#6).size.toNat ≤ (inPhase .fill 63#62 3#61 0#6).p.toNat ∧
    (inPhase .fill 63#62 3#61 0#6).p.toNat < padP (inPhase .fill 63#62 3#61 0#6).size.toNat := by decide

theorem test_witness_LoadwLoadsBigEndianWord :
    (inPhase .sched 64#62 3#61 0#6).phase = .sched ∧ (inPhase .sched 64#62 3#61 0#6).t.toNat = (0#4).toNat ∧
    (inPhase .sched 64#62 3#61 15#6).phase = .sched ∧ (inPhase .sched 64#62 3#61 15#6).t.toNat = (15#4).toNat := by
  decide

/-- Both rows at their ends: `t = 16`, `t = 31`, `t = 32`, and the last word, `t = 63`. -/
theorem test_witness_ExpandDerivesScheduleWord :
    (inPhase .sched 64#62 3#61 16#6).t.toNat = 16 ∧ 16 = 16 + (0#4).toNat ∧
    (inPhase .sched 64#62 3#61 31#6).t.toNat = 31 ∧ 31 = 16 + (15#4).toNat ∧
    (inPhase .sched 64#62 3#61 32#6).t.toNat = 32 ∧ 32 = 32 + (0#5).toNat ∧
    (inPhase .sched 64#62 3#61 63#6).t.toNat = 63 ∧ 63 = 32 + (31#5).toNat ∧
    (inPhase .sched 64#62 3#61 63#6).phase = .sched := by decide

theorem test_witness_InitwvLoadsWorkingVariables : (inPhase .init 64#62 3#61 0#6).phase = .init := by decide

/-- Round 0 and round 63. -/
theorem test_witness_RoundMixesWorkingVariables :
    (inPhase .rounds 64#62 3#61 0#6).phase = .rounds ∧ (inPhase .rounds 64#62 3#61 0#6).t = 0#6 ∧
    (inPhase .rounds 64#62 3#61 63#6).phase = .rounds ∧ (inPhase .rounds 64#62 3#61 63#6).t = 63#6 := by decide

/-- After the last block (`p = P = 64`) and before it (`P = 128`). -/
theorem test_witness_FoldAddsWorkingVariables :
    abcFold.phase = .fold ∧ abcFold.p.toNat = abcFold.size.toNat + 1 + padZ abcFold.size.toNat + 8 ∧
    ({ abcFold with size := 56#61 } : State).phase = .fold ∧ 64 ≠ 56 + 1 + padZ 56 + 8 := by decide

theorem test_witness_EmitWritesDigest : (inPhase .emit 64#62 3#61 0#6).phase = .emit := by decide

theorem test_witness_MicroOpRunsOnlyWhereEnabled :
    Instr.padbyte.isCommand = false ∧ microOp inPad = some .padbyte ∧ microOp inFill ≠ some .padbyte ∧
    (Instr.loadw 5#4).isCommand = false ∧ microOp inSched = some (.loadw 5#4) ∧ microOp inSched ≠ some (.loadw 6#4) := by
  decide

/-- An instruction that changes each element, one per clause. -/
theorem test_witness_OnlyListedInstructionsWriteEachElement :
    (nextOf (exec (.start 3#64) State.reset)).map (fun t => (decide (t.H ≠ State.reset.H), decide (t.size ≠ 0#61))) =
      some (true, true) ∧
    (nextOf (exec .initwv { inPhase .init 64#62 3#61 0#6 with H := IV })).map (·.wv) ≠ some State.reset.wv ∧
    (nextOf (exec (.loadw 5#4) { inSched with B := Vector.replicate 64 1#8 })).map (·.W) ≠ some State.reset.W ∧
    (nextOf (exec (.data 1#8) inFill)).map (·.B) ≠ some State.reset.B ∧
    (nextOf (exec .emit { inPhase .emit 64#62 3#61 0#6 with H := IV })).map (·.D) ≠ some State.reset.D ∧
    (nextOf (exec .padbyte inPad)).map (·.p) ≠ some inPad.p ∧
    (nextOf (exec (.loadw 5#4) inSched)).map (·.t) ≠ some inSched.t ∧
    (nextOf (exec (.data 1#8) State.reset)).map (·.err) ≠ some State.reset.err ∧
    (nextOf (exec (.data 1#8) inDone)).map (·.digestValid) ≠ some inDone.digestValid := by decide

/-- The ends of the range of amounts, and of bits. -/
theorem test_witness_RotateAndShiftBits :
    (0 < 1 ∧ 1 < 32) ∧ (0 < 31 ∧ 31 < 32) ∧
    (rotr 0x00000001#32 1).getLsbD 31 = (0x00000001#32).getLsbD ((31 + 1) % 32) ∧
    (rotr 0x80000001#32 31).getLsbD 0 = (0x80000001#32).getLsbD ((0 + 31) % 32) := by decide

/-- Both ends of the words: where the shift's bit is above the word, and where it is not. -/
theorem test_witness_MixingFunctionsBits :
    (31 < 32 ∧ ¬ 31 + 3 < 32 ∧ (sigma0 0xffffffff#32).getLsbD 31 = false) ∧
    (0 < 32 ∧ 0 + 10 < 32 ∧ (sigma1 0xffffffff#32).getLsbD 0 = true) := by decide

theorem test_witness_ChooseAndMajorityBits :
    (31 < 32 ∧ (ch 0x80000000#32 0x80000000#32 0#32).getLsbD 31 = true) ∧
    (0 < 32 ∧ (maj 1#32 0#32 0#32).getLsbD 0 = false) := by decide

theorem test_witness_PaddingQuantities :
    (0 < 2 ^ 61 ∧ 0 = 8 * 0) ∧ (2 ^ 61 - 1 < 2 ^ 61 ∧ 2 ^ 64 - 8 = 8 * (2 ^ 61 - 1)) := by decide

/-- "abc": the terminator at 3 and the last length byte at 63. -/
theorem test_witness_PadByteIsPaddedMessage :
    [0x61#8, 0x62#8, 0x63#8].length = (3#61).toNat ∧ ((3#61).toNat ≤ 3 ∧ 3 < padP (3#61).toNat) ∧
    ((3#61).toNat ≤ 63 ∧ 63 < padP (3#61).toNat) := by decide

theorem test_witness_LengthFieldIsBitLength :
    7 < 8 ∧ padByte (padP 3 - 8 + 7) 3#61 = 0x18#8 ∧ 0 < 8 ∧
    padByte (padP (2 ^ 61 - 1) - 8 + 0) 0x1fffffffffffffff#61 = 0xff#8 := by decide

theorem test_witness_ResetEventWritesControlOnly :
    ({ inSched with host := [.reset] } : State).host = .reset :: [] := by decide

/-- The invariants hold together, with a step, from a core that pads. -/
theorem test_witness_invariants_kept : inPad.CtrlInv ∧ inPad.DataInv ∧ ∃ t, step inPad = .next t :=
  ⟨⟨by decide, by decide, by decide, by decide, by change _ < _; decide⟩, trivial, _, rfl⟩

theorem test_witness_FoldCompletesCompression :
    dataFold.DataInv ∧ dataFold.phase = .fold ∧ (∃ t, step dataFold = .next t) ∧
    ∀ rest, dataFold.host ≠ .reset :: rest :=
  ⟨⟨rfl, rfl⟩, rfl, ⟨_, rfl⟩, by intro rest h; cases h⟩

/-- The boundary indices of the two ranges of words, and a core at the first of the 64 steps. -/
theorem test_witness_ScheduleStepsComputeSchedule :
    (0 < 16 ∧ 15 < 16) ∧ (16 ≤ 16 ∧ 63 < 64) ∧
    (inPhase .sched 64#62 3#61 0#6).phase = .sched ∧ (inPhase .sched 64#62 3#61 0#6).t = 0#6 ∧
    (inPhase .sched 64#62 3#61 0#6).host = [] := by decide

/-- A last block and one that is not. -/
theorem test_witness_CompressStepsComputeCompress :
    (inPhase .init 64#62 3#61 0#6).phase = .init ∧ (inPhase .init 64#62 3#61 0#6).t = 0#6 ∧
    (inPhase .init 64#62 3#61 0#6).host = [] ∧ 64 = padP 3 ∧ 64 ≠ padP 56 := by decide

theorem test_witness_InvocationComputesDigest :
    ({ State.reset with host := hostOf [.hash [0x61#8, 0x62#8, 0x63#8]] } : State).phase = .idle ∧
    [0x61#8, 0x62#8, 0x63#8].length < 2 ^ 61 ∧ ([] : List Byte).length < 2 ^ 61 := by decide

theorem test_witness_HoldEndsWithin333Steps :
    inPad.CtrlInv ∧ inPad.busy = true ∧ inPad.cmdReady = false ∧ inPad.host = [] :=
  ⟨⟨by decide, by decide, by decide, by decide, by change _ < _; decide⟩, by decide, by decide, rfl⟩

theorem test_witness_StepFollowsPhaseGraph :
    (∃ t, step inSched = .next t) ∧ ∀ rest, inSched.host ≠ .reset :: rest :=
  ⟨⟨_, rfl⟩, by intro rest h; cases h⟩

/-- A DATA in IDLE, a START that is too large in IDLE and in ERROR, and a DATA discarded in ERROR. -/
theorem test_witness_ErrorEntryWritesNothingElse :
    (nextOf (step { State.reset with host := [.hold (dataWord 0#8)] })).map (·.phase) = some .error ∧
    (nextOf (step { State.reset with host := [.hold (startWord 0xffffffffffffffff#64)] })).map (·.phase) = some .error ∧
    (nextOf (step { inError .badCmd with host := [.hold (startWord 0x2000000000000000#64)] })).map
      (fun t => (t.phase, t.err)) = some (.error, .inputTooLarge) ∧
    (nextOf (step { inError .badCmd with host := [.hold (dataWord 0#8)] })).map (fun t => (t.phase, t.err)) =
      some (.error, .badCmd) := by decide

/-- The EMIT of a one-block message, and a core that stays in DONE. -/
theorem test_witness_DigestBecomesValidOnlyByEmit :
    (inPhase .emit 64#62 3#61 0#6).CtrlInv ∧ (inPhase .emit 64#62 3#61 0#6).DataInv ∧
    (nextOf (step (inPhase .emit 64#62 3#61 0#6))).map (·.digestValid) = some true ∧
    ({ inDone with size := 3#61 } : State).CtrlInv ∧ ({ inDone with size := 3#61 } : State).DataInv ∧
    (nextOf (step { inDone with size := 3#61 })).map (·.digestValid) = some true :=
  ⟨⟨by decide, by decide, by decide, by decide, by change _ = _; decide⟩, trivial, by decide,
    ⟨by decide, by decide, by decide, by decide, by change _ = _; decide⟩, rfl, by decide⟩

/-- Nothing presented, a command presented, a reset. -/
theorem test_witness_DigestStaysUntilCommandOrReset :
    inDone.phase = .done ∧ inDone.digestValid = true ∧ (∃ t, step inDone = .next t) ∧ presented inDone.host = none ∧
    presented ({ inDone with host := [.offer 0#68] } : State).host = some 0#68 ∧
    ({ inDone with host := [.reset] } : State).host = .reset :: [] :=
  ⟨rfl, rfl, ⟨_, rfl⟩, rfl, rfl, rfl⟩

/-- The four ends of a run. -/
theorem test_witness_EndedRunStaysEnded :
    (({ inDone with size := 3#61 } : State).CtrlInv ∧ ({ inDone with size := 3#61 } : State).ended = true) ∧
    ((inError .badCmd).CtrlInv ∧ (inError .badCmd).ended = true) ∧
    (State.reset.CtrlInv ∧ State.reset.ended = true) ∧ (inFill.CtrlInv ∧ inFill.ended = true) :=
  ⟨⟨⟨by decide, by decide, by decide, by decide, by change _ = _; decide⟩, by decide⟩,
    ⟨⟨by decide, by decide, by decide, by decide, trivial⟩, by decide⟩,
    ⟨⟨by decide, by decide, by decide, by decide, trivial⟩, by decide⟩,
    ⟨⟨by decide, by decide, by decide, by decide, by change _ < _; decide⟩, by decide⟩⟩

/-- Two cores in FILL with different blocks, whose hosts present two DATA that differ in both bytes and a pause between. -/
theorem test_witness_ControlDoesNotDependOnData :
    ∃ s s' t t' : State, s.SameControl s' ∧ s.B ≠ s'.B ∧
      s.host = [.hold (dataWord 1#8), .idle, .offer (dataWord 3#8)] ∧
      s'.host = [.hold (dataWord 2#8), .idle, .offer (dataWord 4#8)] ∧ step s = .next t ∧ step s' = .next t' :=
  ⟨{ inFill with host := [.hold (dataWord 1#8), .idle, .offer (dataWord 3#8)] },
    { inFill with B := Vector.replicate 64 7#8, host := [.hold (dataWord 2#8), .idle, .offer (dataWord 4#8)] }, _, _,
    { size_eq := rfl, p_eq := rfl, t_eq := rfl, phase_eq := rfl, err_eq := rfl, valid_eq := rfl,
      host := .cons (.inr ⟨_, _, .inl ⟨rfl, rfl⟩⟩) (.cons (.inl rfl) (.cons (.inr ⟨_, _, .inr ⟨rfl, rfl⟩⟩) .nil)) },
    by decide, rfl, rfl, rfl, rfl⟩

/-- A fresh core and one that has just failed, hashing two messages of two bytes. -/
theorem test_witness_InvocationStepsDependOnSizeAlone :
    ∃ s s' t t' : State, s.phase = .idle ∧ s'.phase = .error ∧ [1#8, 2#8].length = [3#8, 4#8].length ∧
      [1#8, 2#8].length < 2 ^ 61 ∧ s.host = hostOf [.hash [1#8, 2#8]] ∧ s'.host = hostOf [.hash [3#8, 4#8]] ∧
      Sys2Proof.core.run (0 + 1) s = .next t ∧ Sys2Proof.core.run (0 + 1) s' = .next t' :=
  ⟨{ State.reset with host := hostOf [.hash [1#8, 2#8]] }, { inError .badCmd with host := hostOf [.hash [3#8, 4#8]] }, _, _,
    rfl, rfl, rfl, by decide, rfl, rfl, rfl, rfl⟩

/-- A fresh core and one that has just failed, with the same START. -/
theorem test_witness_OutputsAfterStartForgetThePast :
    ∃ s s' t t' : State, s.phase = .idle ∧ s'.phase = .error ∧ s ≠ s' ∧ (3#64).toNat < 2 ^ 61 ∧
      s.host = .hold (startWord 3#64) :: [] ∧ s'.host = .hold (startWord 3#64) :: [] ∧
      Sys2Proof.core.run (0 + 1) s = .next t ∧ Sys2Proof.core.run (0 + 1) s' = .next t' :=
  ⟨{ State.reset with host := [.hold (startWord 3#64)] }, { inError .badCmd with host := [.hold (startWord 3#64)] }, _, _,
    rfl, rfl, by decide, by decide, rfl, rfl, rfl, rfl⟩

end Sys2Proof.Tests
end

section
/-! The bitwise primitives of R10, each said once: `rotr` by its bits, `shr` by its number. -/

namespace Sys2Proof.Machine

/-- Below bit `32 - n` the right shift supplies the bit; from there on the left shift supplies the bit that wrapped round.
An amount of zero is no exception. -/
theorem getLsbD_rotr (x : Word) {n i : Nat} (hn : n < 32) (hi : i < 32) :
    (rotr x n).getLsbD i = x.getLsbD ((i + n) % 32) := by
  rw [rotr, BitVec.getLsbD_or, BitVec.getLsbD_ushiftRight, BitVec.getLsbD_shiftLeft, Nat.add_comm n i]
  by_cases hin : i + n < 32
  · have below : i < 32 - n := by omega
    simp [below, Nat.mod_eq_of_lt hin]
  · have above : ¬ i < 32 - n := by omega
    have wrapped : (i + n) % 32 = i - (32 - n) := by omega
    have outside : x.getLsbD (i + n) = false := BitVec.getLsbD_of_ge x (i + n) (by omega)
    simp [hi, above, wrapped, outside]

@[simp] theorem toNat_shr (x : Word) (n : Nat) : (shr x n).toNat = x.toNat / 2 ^ n := by
  rw [shr, BitVec.toNat_ushiftRight, Nat.shiftRight_eq_div_pow]

/-- Settles O30, from the bits of `rotr` and the number of `shr`. -/
theorem rotateAndShiftBits : Obligations.RotateAndShiftBits := by
  intro x n _ hn
  exact ⟨fun _ hi => getLsbD_rotr x hn hi, toNat_shr x n⟩

end Sys2Proof.Machine
end

section
/-! What an accepted command does (R192 to R196) and what an executed instruction does, each said once. -/

namespace Sys2Proof.Machine

/-- The three outcomes of an accepted START, with the errors it raises (R192, R193, R195). -/
theorem acceptStart_cases (n : BitVec 64) (s : State) :
    acceptStart n s = s.raise .badCmd ∨ acceptStart n s = s.raise .inputTooLarge ∨
      acceptStart n s = s.beginMessage (n.extractLsb' 0 61) := by
  unfold acceptStart
  split
  · exact .inl rfl
  split
  · exact .inr (.inr rfl)
  · exact .inr (.inl rfl)

/-- The three outcomes of an accepted DATA (R194, R195, R196). -/
theorem acceptData_cases (b : Byte) (s : State) :
    acceptData b s = s ∨ (s.phase = .fill ∧ acceptData b s = s.placeByte b) ∨ acceptData b s = s.raise .badCmd := by
  unfold acceptData
  split
  · exact .inl rfl
  split
  · exact .inr (.inl ⟨‹_›, rfl⟩)
  · exact .inr (.inr rfl)

/-- The two outcomes of an accepted ILLEGAL word (R195, R196). -/
theorem acceptIllegal_cases (s : State) : acceptIllegal s = s ∨ acceptIllegal s = s.raise .badCmd := by
  unfold acceptIllegal
  split
  · exact .inl rfl
  · exact .inr rfl

/-- The state `t` is what instruction `i` can make of `s`: a command is ignored or discarded, raises an error, or has the
effect of its own rule; a micro-operation has its one effect. -/
inductive InstrEffect (s : State) : Instr → State → Prop
  | kept {i : Instr} (command : i.isCommand = true) : InstrEffect s i s
  | raised {i : Instr} (command : i.isCommand = true) (e : Err) : InstrEffect s i (s.raise e)
  | begun (n : BitVec 64) : InstrEffect s (.start n) (s.beginMessage (n.extractLsb' 0 61))
  | stored (b : Byte) : InstrEffect s (.data b) (s.placeByte b)
  | padded : InstrEffect s .padbyte (s.placeByte (padByte s.p.toNat s.size))
  | loaded (k : BitVec 4) : InstrEffect s (.loadw k) (s.loadWord k)
  | expandedLow (k : BitVec 4) : InstrEffect s (.expandLow k) (s.expand s.t)
  | expandedHigh (k : BitVec 5) : InstrEffect s (.expandHigh k) (s.expand s.t)
  | varsLoaded : InstrEffect s .initwv s.loadVars
  | mixed (k : BitVec 6) : InstrEffect s (.round k) (s.mixRound k)
  | folded : InstrEffect s .fold s.foldVars
  | emitted : InstrEffect s .emit s.writeOut

/-- At the port a command has its effect or none (R68, R191), so it is enough to know its effect where it is accepted. -/
theorem InstrEffect.of_atPort {i : Instr} {s a t : State} (hc : i.isCommand = true) (ha : InstrEffect s i a)
    (h : atPort s a = .next t) : InstrEffect s i t := by
  rw [atPort_eq_next] at h
  subst h
  split
  · exact ha
  · exact .kept hc

/-- A micro-operation answers a next state only with its effect. -/
theorem InstrEffect.of_whenEnabled {i : Instr} {s e t : State} {enabled : Bool} {m : String} (he : InstrEffect s i e)
    (h : whenEnabled enabled m e = .next t) : InstrEffect s i t := by
  obtain ⟨-, rfl⟩ := (whenEnabled_eq_next ..).1 h
  exact he

theorem acceptStart_effect (n : BitVec 64) (s : State) : InstrEffect s (.start n) (acceptStart n s) := by
  rcases acceptStart_cases n s with ha | ha | ha <;> rw [ha]
  · exact .raised rfl _
  · exact .raised rfl _
  · exact .begun n

theorem acceptData_effect (b : Byte) (s : State) : InstrEffect s (.data b) (acceptData b s) := by
  rcases acceptData_cases b s with ha | ⟨-, ha⟩ | ha <;> rw [ha]
  · exact .kept rfl
  · exact .stored b
  · exact .raised rfl _

theorem acceptIllegal_effect {i : Instr} (hc : i.isCommand = true) (s : State) :
    InstrEffect s i (acceptIllegal s) := by
  rcases acceptIllegal_cases s with ha | ha <;> rw [ha]
  · exact .kept hc
  · exact .raised hc _

/-- Every next state that `exec` answers is an effect of its instruction. -/
theorem exec_effect {i : Instr} {s t : State} (h : exec i s = .next t) : InstrEffect s i t := by
  cases i with
  | start n => exact .of_atPort rfl (acceptStart_effect n s) h
  | data b => exact .of_atPort rfl (acceptData_effect b s) h
  | illegalData _ | illegalOp0 _ | illegalOp3 _ | illegalOp4to7 _ _ | illegalOp8toF _ _ =>
    exact .of_atPort rfl (acceptIllegal_effect rfl s) h
  | padbyte => exact .of_whenEnabled .padded h
  | loadw k => exact .of_whenEnabled (.loaded k) h
  | expandLow k => exact .of_whenEnabled (.expandedLow k) h
  | expandHigh k => exact .of_whenEnabled (.expandedHigh k) h
  | initwv => exact .of_whenEnabled .varsLoaded h
  | round k => exact .of_whenEnabled (.mixed k) h
  | fold => exact .of_whenEnabled .folded h
  | emit => exact .of_whenEnabled .emitted h

end Sys2Proof.Machine
end

section
/-! The outputs as functions of the state (R34, R87), and the control invariant through each update of the state. -/

namespace Sys2Proof.Machine

/-- The core is busy in the phases that work on a message, and in no other (R34). -/
theorem busy_iff (s : State) :
    s.busy = true ↔ s.phase = .fill ∨ s.phase = .sched ∨ s.phase = .init ∨ s.phase = .rounds ∨ s.phase = .fold ∨
      s.phase = .emit := by
  cases h : s.phase <;> simp [State.busy, h]

theorem busy_of_block {s : State}
    (hp : s.phase = .sched ∨ s.phase = .init ∨ s.phase = .rounds ∨ s.phase = .fold) : s.busy = true := by
  rcases hp with hp | hp | hp | hp <;> simp [State.busy, hp]

/-! What the invariant says in one phase. -/

theorem progress_fill {s : State} (hp : s.phase = .fill) : s.Progress ↔ s.p.toNat < padP s.size.toNat := by
  simp [State.Progress, hp]

theorem progress_block {s : State} (hp : s.phase = .sched ∨ s.phase = .init ∨ s.phase = .rounds ∨ s.phase = .fold) :
    s.Progress ↔ s.p.toNat % 64 = 0 ∧ 64 ≤ s.p.toNat ∧ s.p.toNat ≤ padP s.size.toNat := by
  rcases hp with hp | hp | hp | hp <;> simp [State.Progress, hp]

theorem progress_last {s : State} (hp : s.phase = .emit ∨ s.phase = .done) :
    s.Progress ↔ s.p.toNat = padP s.size.toNat := by
  rcases hp with hp | hp <;> simp [State.Progress, hp]

/-- A waiting core is in neither of the phases that count with `t`. -/
theorem State.CtrlInv.t_zero_of_cmdReady {s : State} (h : s.CtrlInv) (hr : s.cmdReady = true) : s.t = 0#6 := by
  apply h.t_zero <;> intro hp <;> simp [State.cmdReady, hp] at hr

/-- While the core is busy there is no error and no digest to show. -/
theorem State.CtrlInv.status_of_busy {s : State} (h : s.CtrlInv) (hb : s.busy = true) :
    s.err = .none ∧ s.digestValid = false := by
  have not_error : s.phase ≠ .error := by intro hp; simp [State.busy, hp] at hb
  have not_done : s.phase ≠ .done := by intro hp; simp [State.busy, hp] at hb
  exact ⟨not_not.1 fun he => not_error (h.err_iff.1 he), by simpa using mt h.valid_iff.1 not_done⟩

/-- In a busy core the invariant is `t`, the two status registers at rest, and the byte counter. -/
theorem ctrlInv_of_busy {s : State} (hb : s.busy = true) (hs : s.err = .none ∧ s.digestValid = false)
    (ht : s.phase ≠ .sched → s.phase ≠ .rounds → s.t = 0#6) (hp : s.Progress) : s.CtrlInv := by
  obtain ⟨herr, hvalid⟩ := hs
  refine ⟨ht, ?_, by simp [herr], ?_, hp⟩
  · simp only [herr, ne_eq, not_true, false_iff]
    intro he; simp [State.busy, he] at hb
  · simp only [hvalid, Bool.false_eq_true, false_iff]
    intro hd; simp [State.busy, hd] at hb

/-- The invariant says nothing of the host. -/
theorem State.CtrlInv.with_host {s : State} (h : s.CtrlInv) (q : List HostEvent) : { s with host := q }.CtrlInv :=
  ⟨h.t_zero, h.err_iff, h.not_alloc, h.valid_iff, h.progress⟩

/-! Each update keeps the invariant where the machine makes it. -/

theorem ctrlInv_applyReset (s : State) : s.applyReset.CtrlInv := by
  constructor <;> simp [State.Progress]

theorem ctrlInv_beginMessage (s : State) (n : BitVec 61) : (s.beginMessage n).CtrlInv := by
  have := lt_padP n.toNat
  refine ctrlInv_of_busy rfl ⟨rfl, rfl⟩ (fun _ _ => rfl) ((progress_fill rfl).2 ?_)
  simp; omega

theorem ctrlInv_raise {s : State} {e : Err} (ht : s.t = 0#6) (hn : e ≠ .none) (ha : e ≠ .alloc) :
    (s.raise e).CtrlInv := by
  constructor <;> simp [State.Progress, ht, hn, ha]

/-- The byte counter cannot pass `P`, which is a block boundary: a byte that completes no block is not the last (R116). -/
theorem State.CtrlInv.placeByte {s : State} (h : s.CtrlInv) (hp : s.phase = .fill) (b : Byte) :
    (s.placeByte b).CtrlInv := by
  have below : s.p.toNat < padP s.size.toNat := (progress_fill hp).1 h.progress
  have whole : padP s.size.toNat % 64 = 0 := padP_mod s.size.toNat
  have small : padP s.size.toNat < 2 ^ 62 := padP_lt s.size
  have next : (s.p + 1#62).toNat = s.p.toNat + 1 := by
    rw [BitVec.toNat_add]; simp; omega
  have status := h.status_of_busy ((busy_iff s).2 (.inl hp))
  have rest : s.t = 0#6 := h.t_zero (by simp [hp]) (by simp [hp])
  by_cases full : (s.p.toNat + 1) % 64 = 0
  · have hp' : (s.placeByte b).phase = .sched := by simp [full]
    refine ctrlInv_of_busy (by simp [busy_iff, full]) status (fun _ _ => rest) ((progress_block (.inl hp')).2 ?_)
    simp only [State.placeByte_p, State.placeByte_size, next]; omega
  · have hp' : (s.placeByte b).phase = .fill := by simp [full, hp]
    refine ctrlInv_of_busy (by simp [busy_iff, full, hp]) status (fun _ _ => rest) ((progress_fill hp').2 ?_)
    simp only [State.placeByte_p, State.placeByte_size, next]; omega

/-- A block stays where it is in the message while it is scheduled and compressed: `p` and `size` stand still, and `t` is
back at 0 when the last word or round is done. -/
theorem State.CtrlInv.within_block {s u : State} (h : s.CtrlInv)
    (hs : s.phase = .sched ∨ s.phase = .init ∨ s.phase = .rounds ∨ s.phase = .fold)
    (hu : u.phase = .sched ∨ u.phase = .init ∨ u.phase = .rounds ∨ u.phase = .fold)
    (ht : u.phase ≠ .sched → u.phase ≠ .rounds → u.t = 0#6) (hp : u.p = s.p) (hsize : u.size = s.size)
    (herr : u.err = s.err) (hvalid : u.digestValid = s.digestValid) : u.CtrlInv := by
  have status := h.status_of_busy (busy_of_block hs)
  refine ctrlInv_of_busy (busy_of_block hu) (by rwa [herr, hvalid]) ht ((progress_block hu).2 ?_)
  rw [hp, hsize]
  exact (progress_block hs).1 h.progress

theorem State.CtrlInv.loadWord {s : State} (h : s.CtrlInv) (hp : s.phase = .sched) (k : BitVec 4) :
    (s.loadWord k).CtrlInv :=
  h.within_block (.inl hp) (.inl hp) (fun hn => absurd hp hn) rfl rfl rfl rfl

theorem State.CtrlInv.expand {s : State} (h : s.CtrlInv) (hp : s.phase = .sched) (k : BitVec 6) :
    (s.expand k).CtrlInv := by
  by_cases last : k = 63#6
  · exact h.within_block (.inl hp) (by simp [last]) (by simp [last]) rfl rfl rfl rfl
  · exact h.within_block (.inl hp) (by simp [last, hp]) (by simp [last, hp]) rfl rfl rfl rfl

theorem State.CtrlInv.loadVars {s : State} (h : s.CtrlInv) (hp : s.phase = .init) : s.loadVars.CtrlInv :=
  h.within_block (by simp [hp]) (by simp) (by simp) rfl rfl rfl rfl

theorem State.CtrlInv.mixRound {s : State} (h : s.CtrlInv) (hp : s.phase = .rounds) (k : BitVec 6) :
    (s.mixRound k).CtrlInv := by
  by_cases last : k = 63#6
  · exact h.within_block (by simp [hp]) (by simp [last]) (by simp [last]) rfl rfl rfl rfl
  · exact h.within_block (by simp [hp]) (by simp [last, hp]) (by simp [last, hp]) rfl rfl rfl rfl

/-- After block `N` the byte counter is at `P`; after an earlier block it is below (R156). -/
theorem State.CtrlInv.foldVars {s : State} (h : s.CtrlInv) (hp : s.phase = .fold) : s.foldVars.CtrlInv := by
  obtain ⟨-, -, inside⟩ := (progress_block (by simp [hp])).1 h.progress
  have status := h.status_of_busy (by simp [busy_iff, hp])
  have rest : s.t = 0#6 := h.t_zero (by simp [hp]) (by simp [hp])
  by_cases last : s.p.toNat = padP s.size.toNat
  · have hp' : s.foldVars.phase = .emit := by simp [last]
    exact ctrlInv_of_busy (by simp [busy_iff, last]) status (fun _ _ => rest) ((progress_last (.inl hp')).2 last)
  · have hp' : s.foldVars.phase = .fill := by simp [last]
    exact ctrlInv_of_busy (by simp [busy_iff, last]) status (fun _ _ => rest)
      ((progress_fill hp').2 (lt_of_le_of_ne inside last))

/-- EMIT is the one update that sets `digest_valid`, and it enters DONE (R239). -/
theorem State.CtrlInv.writeOut {s : State} (h : s.CtrlInv) (hp : s.phase = .emit) : s.writeOut.CtrlInv := by
  obtain ⟨herr, -⟩ := h.status_of_busy (by simp [busy_iff, hp])
  have rest : s.t = 0#6 := h.t_zero (by simp [hp]) (by simp [hp])
  have last : s.p.toNat = padP s.size.toNat := (progress_last (.inl hp)).1 h.progress
  constructor <;> simp [State.Progress, herr, rest, last]

/-! Each accepted command keeps the invariant; the errors it raises are never NONE or ALLOC. -/

theorem State.CtrlInv.acceptStart {s : State} (h : s.CtrlInv) (hr : s.cmdReady = true) (n : BitVec 64) :
    (acceptStart n s).CtrlInv := by
  have rest := h.t_zero_of_cmdReady hr
  rcases acceptStart_cases n s with ha | ha | ha <;> rw [ha]
  · exact ctrlInv_raise rest (by decide) (by decide)
  · exact ctrlInv_raise rest (by decide) (by decide)
  · exact ctrlInv_beginMessage s _

theorem State.CtrlInv.acceptData {s : State} (h : s.CtrlInv) (hr : s.cmdReady = true) (b : Byte) :
    (acceptData b s).CtrlInv := by
  rcases acceptData_cases b s with ha | ⟨hp, ha⟩ | ha <;> rw [ha]
  · exact h
  · exact h.placeByte hp b
  · exact ctrlInv_raise (h.t_zero_of_cmdReady hr) (by decide) (by decide)

theorem State.CtrlInv.acceptIllegal {s : State} (h : s.CtrlInv) (hr : s.cmdReady = true) :
    (acceptIllegal s).CtrlInv := by
  rcases acceptIllegal_cases s with ha | ha <;> rw [ha]
  · exact h
  · exact ctrlInv_raise (h.t_zero_of_cmdReady hr) (by decide) (by decide)

/-- A step keeps the control invariant, whatever it does. -/
theorem State.CtrlInv.step {s t : State} (h : s.CtrlInv) (hst : step s = .next t) : t.CtrlInv := by
  rcases step_effect s t hst with ⟨rest, -, rfl⟩ | ⟨-, ⟨hp, -, rfl⟩ | ⟨hp, -, rfl⟩ | ⟨hp, -, rfl⟩ | ⟨hp, rfl⟩ |
    ⟨hp, rfl⟩ | ⟨hp, rfl⟩ | ⟨hp, rfl⟩ | ⟨hr, cw, -, ⟨n, -, rfl⟩ | ⟨b, -, rfl⟩ | ⟨-, rfl⟩⟩ | ⟨-, -, rfl⟩⟩
  case inl => exact (ctrlInv_applyReset s).with_host rest
  all_goals refine State.CtrlInv.with_host ?_ _
  · exact h.placeByte hp _
  · exact h.loadWord hp _
  · exact h.expand hp _
  · exact h.loadVars hp
  · exact h.mixRound hp _
  · exact h.foldVars hp
  · exact h.writeOut hp
  · exact h.acceptStart hr n
  · exact h.acceptData hr b
  · exact h.acceptIllegal hr
  · exact h

end Sys2Proof.Machine
end

section
/-! The statements about the state as a whole. -/

namespace Sys2Proof.Machine

/-- Settles O40, from the case analysis of a step: each update of the state keeps the control invariant. -/
theorem ctrlInvKeptByStep : Obligations.CtrlInvKeptByStep :=
  fun _ _ h hst => h.step hst

/-- Settles O28, from the effects an instruction can have. -/
theorem onlyListedInstructionsWriteEachElement : Obligations.OnlyListedInstructionsWriteEachElement := by
  intro i s t h
  cases exec_effect h with
  | raised command e => simp [command]
  | kept _ | begun _ | stored _ => simp
  | padded | loaded _ | expandedLow _ | expandedHigh _ | varsLoaded | mixed _ | folded | emitted => simp

/-- Settles O29, phase by phase and code by code. -/
theorem outputsAreFunctionsOfState : Obligations.OutputsAreFunctionsOfState := by
  intro s
  refine ⟨cmdReady_iff s, busy_iff s, ?_⟩
  cases h : s.err <;> simp [State.errOut, Err.code, h]

end Sys2Proof.Machine
end

section
/-! The command port of a core that is not ready (R68, R191), and instructions that never look at the host. -/

namespace Sys2Proof.Machine

/-- Every command goes through the port, with the effect it has where it is accepted (R191). -/
theorem exec_command_atPort {i : Instr} (hc : i.isCommand = true) (s : State) : ∃ a, exec i s = atPort s a := by
  rcases isCommand_cases i hc with ⟨n, rfl⟩ | ⟨b, rfl⟩ | hi
  · exact ⟨acceptStart n s, rfl⟩
  · exact ⟨acceptData b s, rfl⟩
  · exact ⟨acceptIllegal s, exec_isIllegal i s hi⟩

/-- Settles O18: the port of a core that is not ready lets no effect through. -/
theorem commandWaitsWhileNotReady : Obligations.CommandWaitsWhileNotReady := by
  intro s i hc hr
  obtain ⟨a, ha⟩ := exec_command_atPort hc s
  rw [ha, atPort_eq_next, hr, if_neg Bool.false_ne_true]

/-- A `require` clause lets an effect through whatever the host of the effect's state is. -/
theorem whenEnabled_host {b : Bool} {m : String} {e t : State} (h : whenEnabled b m e = .next t)
    (q : List HostEvent) : whenEnabled b m { e with host := q } = .next { t with host := q } := by
  obtain ⟨rfl, rfl⟩ := (whenEnabled_eq_next ..).1 h
  rfl

/-- A micro-operation reads nothing of the host and writes nothing of it (R68). -/
theorem exec_host_of_not_command {i : Instr} {s t : State} (hi : i.isCommand = false) (h : exec i s = .next t)
    (q : List HostEvent) : exec i { s with host := q } = .next { t with host := q } := by
  cases i with
  | start | data | illegalData | illegalOp0 | illegalOp3 | illegalOp4to7 | illegalOp8toF => cases hi
  | padbyte | loadw | expandLow | expandHigh | initwv | round | fold | emit => exact whenEnabled_host h q

/-- The sequencer's choices are micro-operations (R197). -/
theorem isCommand_of_microOp {s : State} {i : Instr} (h : microOp s = some i) : i.isCommand = false := by
  cases hp : s.phase <;> simp [microOp, hp] at h
  case fill => rw [← h.2]; rfl
  case sched => subst h; unfold schedOp; split_ifs <;> rfl
  all_goals subst h; rfl

/-- A core that is not ready has an enabled micro-operation (R190). -/
theorem microOp_of_not_cmdReady {s : State} (hr : s.cmdReady = false) : ∃ i, microOp s = some i :=
  Option.isSome_iff_exists.1 (by rw [microOp_isSome, hr]; rfl)

/-- An enabled micro-operation is the step, unless the host resets the core (R190, R202, R260). -/
theorem step_of_microOp {s : State} {i : Instr} (hm : microOp s = some i) (hr : ∀ rest, s.host ≠ .reset :: rest) :
    step s = exec i { s with host := hostWaits s.host } := by
  rcases step_cases s with ⟨rest, hh, -⟩ | ⟨j, hj, -, h⟩ | ⟨_, hn, -⟩ | ⟨hn, -⟩
  · exact absurd hh (hr rest)
  · obtain rfl : i = j := Option.some.inj (hm.symm.trans hj)
    exact h
  · cases hm.symm.trans hn
  · cases hm.symm.trans hn

/-- Settles O12: a core that is not ready runs its micro-operation, which does not look at the host. -/
theorem busyCoreIgnoresPort : Obligations.BusyCoreIgnoresPort := by
  intro s q hr hq
  obtain ⟨i, hm⟩ := microOp_of_not_cmdReady hr
  obtain ⟨t, ht⟩ := exec_microOp s i hm []
  have alone : step { s with host := [] } = exec i { s with host := [] } := step_of_microOp hm nofun
  have beside : step { s with host := q } = exec i { s with host := hostWaits q } := step_of_microOp hm hq
  exact ⟨t, alone.trans ht, beside.trans (exec_host_of_not_command (isCommand_of_microOp hm) ht (hostWaits q))⟩

end Sys2Proof.Machine
end

section
/-! Command words by their fields (R80 to R84): every row's word decodes to its instruction, and every word is one. -/

namespace Sys2Proof

open Machine

/-- The opcodes as the table's rows divide them (R84, R88). -/
theorem cmdOp_cases : ∀ op : BitVec 4,
    op = 0x0#4 ∨ op = 0x1#4 ∨ op = 0x2#4 ∨ op = 0x3#4 ∨
      (∃ op10 : BitVec 2, op = 0b01#2 ++ op10) ∨ ∃ op20 : BitVec 3, op = 0b1#1 ++ op20 := by decide

/-- An `arg` whose upper 56 bits are zero is its low byte (R82). -/
theorem setWidth_low_byte {arg : BitVec 64} (h : arg.extractLsb' 8 56 = 0#56) :
    (arg.extractLsb' 0 8).setWidth 64 = arg := by
  have high : arg.toNat / 2 ^ 8 % 2 ^ 56 = 0 := by
    simpa [BitVec.extractLsb'_toNat, Nat.shiftRight_eq_div_pow] using congrArg BitVec.toNat h
  apply BitVec.eq_of_toNat_eq
  simp [BitVec.extractLsb'_toNat]
  omega

theorem decodeCmd_startWord (n : BitVec 64) : decodeCmd (startWord n) = .start n := by
  simp [decodeCmd, startWord, cmdOp_append, cmdArg_append]

theorem decodeCmd_illegalData {arg : BitVec 64} (h : arg.extractLsb' 8 56 ≠ 0#56) :
    decodeCmd (0x2#4 ++ arg) = .illegalData arg := by
  simp [decodeCmd, cmdOp_append, cmdArg_append, h]

theorem decodeCmd_illegalOp0 (arg : BitVec 64) : decodeCmd (0x0#4 ++ arg) = .illegalOp0 arg := by
  simp [decodeCmd, cmdOp_append, cmdArg_append]

theorem decodeCmd_illegalOp3 (arg : BitVec 64) : decodeCmd (0x3#4 ++ arg) = .illegalOp3 arg := by
  simp [decodeCmd, cmdOp_append, cmdArg_append]

/-- From opcode 4 on, bit 3 of the opcode tells the two rows apart (R84, R88). -/
theorem decodeCmd_of_four_le {op : BitVec 4} (h : 4 ≤ op.toNat) (arg : BitVec 64) :
    decodeCmd (op ++ arg) =
      if op.extractLsb' 3 1 = 0#1 then .illegalOp4to7 (op.extractLsb' 0 2) arg
      else .illegalOp8toF (op.extractLsb' 0 3) arg := by
  have other : ∀ k : BitVec 4, k.toNat < 4 → op ≠ k := by rintro k hk rfl; omega
  simp [decodeCmd, cmdOp_append, cmdArg_append, other]

theorem decodeCmd_illegalOp4to7 (op10 : BitVec 2) (arg : BitVec 64) :
    decodeCmd ((0b01#2 ++ op10) ++ arg) = .illegalOp4to7 op10 arg := by
  have fields : ∀ x : BitVec 2, 4 ≤ (0b01#2 ++ x).toNat ∧
      (0b01#2 ++ x).extractLsb' 3 1 = 0#1 ∧ (0b01#2 ++ x).extractLsb' 0 2 = x := by decide
  obtain ⟨row, bit3, low⟩ := fields op10
  exact (decodeCmd_of_four_le row arg).trans (by rw [if_pos bit3, low])

theorem decodeCmd_illegalOp8toF (op20 : BitVec 3) (arg : BitVec 64) :
    decodeCmd ((0b1#1 ++ op20) ++ arg) = .illegalOp8toF op20 arg := by
  have fields : ∀ x : BitVec 3, 4 ≤ (0b1#1 ++ x).toNat ∧
      (0b1#1 ++ x).extractLsb' 3 1 ≠ 0#1 ∧ (0b1#1 ++ x).extractLsb' 0 3 = x := by decide
  obtain ⟨row, bit3, low⟩ := fields op20
  exact (decodeCmd_of_four_le row arg).trans (by rw [if_neg bit3, low])

/-- Every command word is the word of a well-formed instruction: R84 leaves none out. -/
theorem exists_encode_eq_cmd (cw : CmdWord) : ∃ i : Instr, i.wf = true ∧ encode i = .cmd cw := by
  rw [← cmdOp_append_cmdArg cw]
  generalize cmdOp cw = op, cmdArg cw = arg
  rcases cmdOp_cases op with rfl | rfl | rfl | rfl | ⟨op10, rfl⟩ | ⟨op20, rfl⟩
  · exact ⟨.illegalOp0 arg, rfl, rfl⟩
  · exact ⟨.start arg, rfl, rfl⟩
  · by_cases byte : arg.extractLsb' 8 56 = 0#56
    · exact ⟨.data (arg.extractLsb' 0 8), rfl, by rw [encode, setWidth_low_byte byte]⟩
    · exact ⟨.illegalData arg, bne_iff_ne.2 byte, rfl⟩
  · exact ⟨.illegalOp3 arg, rfl, rfl⟩
  · exact ⟨.illegalOp4to7 op10 arg, rfl, rfl⟩
  · exact ⟨.illegalOp8toF op20 arg, rfl, rfl⟩

end Sys2Proof
end

section
/-! Sequencer words by their fields (R86): the words that decode, and what they decode to. -/

namespace Sys2Proof

open Machine

/-- A sequencer word is its two fields (R86). -/
theorem seqPhase_append_seqT (sw : SeqWord) : seqPhase sw ++ seqT sw = sw := by
  apply BitVec.eq_of_toNat_eq
  have := sw.isLt
  rw [append_toNat]
  simp [seqPhase, seqT, BitVec.extractLsb'_toNat, Nat.shiftRight_eq_div_pow]
  omega

/-- The decoder's choice in phase SCHED, by bits 5 and 4 of `t`, is the sequencer's, by the size of `t` (R86, R197). -/
theorem decodeSeq_sched {sw : SeqWord} (h : seqPhase sw = 2#4) : decodeSeq sw = .ok (schedOp (seqT sw)) := by
  have choice : ∀ t : BitVec 6,
      (if t.extractLsb' 4 2 = 0#2 then Instr.loadw (t.extractLsb' 0 4)
        else if t.extractLsb' 4 2 = 1#2 then .expandLow (t.extractLsb' 0 4)
        else .expandHigh (t.extractLsb' 0 5)) = schedOp t := by decide
  rw [decodeSeq, if_pos h, ← choice (seqT sw)]
  split_ifs <;> rfl

theorem decodeSeq_rounds {sw : SeqWord} (h : seqPhase sw = 4#4) : decodeSeq sw = .ok (.round (seqT sw)) := by
  simp [decodeSeq, h]

/-- The patterns of R86, each with its micro-operation: outside SCHED and ROUNDS the field `t` is 0. -/
theorem decodeSeq_eq_ok {sw : SeqWord} {i : Instr} :
    decodeSeq sw = .ok i ↔
      seqPhase sw = 2#4 ∧ schedOp (seqT sw) = i ∨ seqPhase sw = 4#4 ∧ .round (seqT sw) = i ∨
      seqT sw = 0#6 ∧
        (seqPhase sw = 1#4 ∧ .padbyte = i ∨ seqPhase sw = 3#4 ∧ .initwv = i ∨
          seqPhase sw = 5#4 ∧ .fold = i ∨ seqPhase sw = 6#4 ∧ .emit = i) := by
  by_cases sched : seqPhase sw = 2#4
  · simp [decodeSeq_sched sched, sched]
  by_cases rounds : seqPhase sw = 4#4
  · simp [decodeSeq_rounds rounds, rounds]
  by_cases rest : seqT sw = 0#6
  · simp only [decodeSeq, if_neg sched, if_neg rounds, if_pos rest]
    split_ifs <;> simp_all
  · simp [decodeSeq, sched, rounds, rest]

/-- The word of the micro-operation chosen in phase SCHED is that phase and the round counter (R86). -/
theorem encode_schedOp : ∀ t : BitVec 6, encode (schedOp t) = .seq (2#4 ++ t) := by decide

/-- A sequencer word that decodes is the word of its micro-operation (R86). -/
theorem encode_of_decodeSeq {sw : SeqWord} {i : Instr} (h : decodeSeq sw = .ok i) :
    encode i = .seq sw ∧ i.wf = true := by
  rw [← seqPhase_append_seqT sw]
  rcases decodeSeq_eq_ok.1 h with ⟨hp, rfl⟩ | ⟨hp, rfl⟩ | ⟨ht, ⟨hp, rfl⟩ | ⟨hp, rfl⟩ | ⟨hp, rfl⟩ | ⟨hp, rfl⟩⟩ <;> rw [hp]
  · exact ⟨encode_schedOp _, by unfold schedOp; split_ifs <;> rfl⟩
  · exact ⟨rfl, rfl⟩
  all_goals rw [ht]; exact ⟨rfl, rfl⟩

end Sys2Proof
end

section
/-! Decoding and encoding undo each other (R84, R86). -/

namespace Sys2Proof

open Machine

/-- Settles O2, row by row: a command by its two fields, a micro-operation by its operand. -/
theorem decodeOfEncodeGivesInstruction : Obligations.DecodeOfEncodeGivesInstruction := by
  intro i hw
  cases i with
  | start n => exact congrArg Except.ok (decodeCmd_startWord n)
  | data b => exact congrArg Except.ok (decodeCmd_dataWord b)
  | illegalData arg => exact congrArg Except.ok (decodeCmd_illegalData (bne_iff_ne.1 hw))
  | illegalOp0 arg => exact congrArg Except.ok (decodeCmd_illegalOp0 arg)
  | illegalOp3 arg => exact congrArg Except.ok (decodeCmd_illegalOp3 arg)
  | illegalOp4to7 op10 arg => exact congrArg Except.ok (decodeCmd_illegalOp4to7 op10 arg)
  | illegalOp8toF op20 arg => exact congrArg Except.ok (decodeCmd_illegalOp8toF op20 arg)
  | padbyte | initwv | fold | emit => rfl
  | loadw k | expandLow k => revert k; decide
  | expandHigh k => revert k; decide
  | round t => revert t; decide

/-- Settles O3: a command word is some instruction's word, so by the round trip it is the word of what it decodes to; a
sequencer word by its pattern. -/
theorem encodeOfDecodeGivesWord : Obligations.EncodeOfDecodeGivesWord := by
  intro iw i h
  cases iw with
  | cmd cw =>
    obtain ⟨j, hw, hj⟩ := exists_encode_eq_cmd cw
    have round_trip : decode (.cmd cw) = .ok j := hj ▸ decodeOfEncodeGivesInstruction j hw
    obtain rfl : i = j := Except.ok.inj (h.symm.trans round_trip)
    exact ⟨hj, hw⟩
  | seq sw => exact encode_of_decodeSeq h

end Sys2Proof
end

section
/-! The first matching row of the opcode table (R88) is the row of the instruction. -/

namespace Sys2Proof

open Machine

/-- The command rows with masks and patterns field by field (R80, R88). -/
theorem cmdRows_eq : cmdRows =
    [ ⟨"START", 0x1#4 ++ 0#64, BitVec.allOnes 4 ++ 0#64⟩,
      ⟨"DATA", 0x2#4 ++ 0#64, BitVec.allOnes 4 ++ 0xFFFFFFFFFFFFFF00#64⟩,
      ⟨"ILLEGAL", 0x2#4 ++ 0#64, BitVec.allOnes 4 ++ 0#64⟩,
      ⟨"ILLEGAL", 0x0#4 ++ 0#64, BitVec.allOnes 4 ++ 0#64⟩,
      ⟨"ILLEGAL", 0x3#4 ++ 0#64, BitVec.allOnes 4 ++ 0#64⟩,
      ⟨"ILLEGAL", 0x4#4 ++ 0#64, 0xC#4 ++ 0#64⟩,
      ⟨"ILLEGAL", 0x8#4 ++ 0#64, 0x8#4 ++ 0#64⟩ ] := by decide

/-- The table read row by row on the fields of a command word: only DATA asks anything of `arg` (R88). -/
theorem findIdx?_cmdRows (op : BitVec 4) (arg : BitVec 64) :
    cmdRows.findIdx? (·.matches (op ++ arg)) =
      if op = 0x1#4 then some 0
      else if op = 0x2#4 ∧ arg &&& 0xFFFFFFFFFFFFFF00#64 = 0#64 then some 1
      else if op = 0x2#4 then some 2
      else if op = 0x0#4 then some 3
      else if op = 0x3#4 then some 4
      else if op &&& 0xC#4 = 0x4#4 then some 5
      else if op &&& 0x8#4 = 0x8#4 then some 6
      else none := by
  simp only [cmdRows_eq, List.findIdx?_cons, matches_append, BitVec.and_allOnes, BitVec.and_zero]
  simp [apply_ite (Option.map _)]

/-- From opcode 4 on, the last two rows are left, and bit 3 of the opcode tells them apart (R88). -/
theorem findIdx?_cmdRows_of_four_le {op : BitVec 4} (h : 4 ≤ op.toNat) (arg : BitVec 64) :
    cmdRows.findIdx? (·.matches (op ++ arg)) = if op.extractLsb' 3 1 = 0#1 then some 5 else some 6 := by
  have other : ∀ k : BitVec 4, k.toNat < 4 → op ≠ k := by rintro k hk rfl; omega
  have bit3 : ∀ x : BitVec 4, 4 ≤ x.toNat →
      (x &&& 0xC#4 = 0x4#4 ↔ x.extractLsb' 3 1 = 0#1) ∧ (x &&& 0x8#4 = 0x8#4 ↔ x.extractLsb' 3 1 ≠ 0#1) := by decide
  obtain ⟨row5, row6⟩ := bit3 op h
  by_cases low : op.extractLsb' 3 1 = 0#1 <;> simp [findIdx?_cmdRows, other, row5, row6, low]

theorem setWidth_and_dataMask : ∀ b : Byte, b.setWidth 64 &&& 0xFFFFFFFFFFFFFF00#64 = 0#64 := by decide

/-- DATA's mask on `arg` looks at the bits that R82 wants zero. -/
theorem and_dataMask_eq_zero (arg : BitVec 64) :
    arg &&& 0xFFFFFFFFFFFFFF00#64 = 0#64 ↔ arg.extractLsb' 8 56 = 0#56 := by
  constructor
  · intro h
    have high := congrArg (BitVec.extractLsb' 8 56) h
    rw [BitVec.extractLsb'_and] at high
    exact BitVec.and_allOnes.symm.trans high
  · intro h
    rw [← setWidth_low_byte h]
    exact setWidth_and_dataMask _

/-- The first row that the word of a well-formed command matches is the command's own. -/
theorem findIdx?_cmdRows_of_encode {i : Instr} {cw : CmdWord} (hw : i.wf = true) (h : encode i = .cmd cw) :
    cmdRows.findIdx? (·.matches cw) = some i.rowIndex := by
  cases i <;> cases h
  case start n => simp [findIdx?_cmdRows, Instr.rowIndex]
  case data b => simp [findIdx?_cmdRows, Instr.rowIndex, setWidth_and_dataMask]
  case illegalData arg =>
    have high : arg &&& 0xFFFFFFFFFFFFFF00#64 ≠ 0#64 := mt (and_dataMask_eq_zero arg).1 (bne_iff_ne.1 hw)
    simp [findIdx?_cmdRows, Instr.rowIndex, high]
  case illegalOp0 arg => simp [findIdx?_cmdRows, Instr.rowIndex]
  case illegalOp3 arg => simp [findIdx?_cmdRows, Instr.rowIndex]
  case illegalOp4to7 op10 arg =>
    have row : ∀ x : BitVec 2, 4 ≤ (0b01#2 ++ x).toNat ∧ (0b01#2 ++ x).extractLsb' 3 1 = 0#1 := by decide
    exact (findIdx?_cmdRows_of_four_le (row op10).1 arg).trans (if_pos (row op10).2)
  case illegalOp8toF op20 arg =>
    have row : ∀ x : BitVec 3, 4 ≤ (0b1#1 ++ x).toNat ∧ (0b1#1 ++ x).extractLsb' 3 1 ≠ 0#1 := by decide
    exact (findIdx?_cmdRows_of_four_le (row op20).1 arg).trans (if_neg (row op20).2)

/-- The first row that the word of a micro-operation matches is the micro-operation's own. -/
theorem findIdx?_seqRows_of_encode {i : Instr} {sw : SeqWord} (h : encode i = .seq sw) :
    seqRows.findIdx? (·.matches sw) = some i.rowIndex := by
  cases i <;> cases h
  case padbyte | initwv | fold | emit => rfl
  case loadw k => revert k; decide
  case expandLow k => revert k; decide
  case expandHigh k => revert k; decide
  case round t => revert t; decide

/-- A sequencer word that matches a row decodes: every row asks for its phase, and outside SCHED and ROUNDS for `t = 0`
(R86). -/
theorem decodeSeq_of_matches {sw : SeqWord} {r : OpcodeRow 10} (hr : r ∈ seqRows) (h : r.matches sw = true) :
    ∃ i, decodeSeq sw = .ok i := by
  have agree : sw &&& r.mask = r.pattern := beq_iff_eq.1 h
  have phase : seqPhase sw &&& seqPhase r.mask = seqPhase r.pattern := by
    rw [← agree, seqPhase, seqPhase, seqPhase, BitVec.extractLsb'_and]
  have counter : seqT sw &&& seqT r.mask = seqT r.pattern := by
    rw [← agree, seqT, seqT, seqT, BitVec.extractLsb'_and]
  have rows : ∀ r ∈ seqRows, seqPhase r.mask = BitVec.allOnes 4 ∧
      (seqPhase r.pattern = 2#4 ∨ seqPhase r.pattern = 4#4 ∨
        (seqT r.mask = BitVec.allOnes 6 ∧ seqT r.pattern = 0#6) ∧
          (seqPhase r.pattern = 1#4 ∨ seqPhase r.pattern = 3#4 ∨ seqPhase r.pattern = 5#4 ∨ seqPhase r.pattern = 6#4)) := by
    decide
  obtain ⟨whole, row⟩ := rows r hr
  rw [whole, BitVec.and_allOnes] at phase
  rw [← phase] at row
  rcases row with hp | hp | ⟨⟨hm, hz⟩, hp⟩
  · exact ⟨_, decodeSeq_sched hp⟩
  · exact ⟨_, decodeSeq_rounds hp⟩
  · rw [hm, hz, BitVec.and_allOnes] at counter
    rcases hp with hp | hp | hp | hp
    · exact ⟨.padbyte, decodeSeq_eq_ok.2 (by simp [counter, hp])⟩
    · exact ⟨.initwv, decodeSeq_eq_ok.2 (by simp [counter, hp])⟩
    · exact ⟨.fold, decodeSeq_eq_ok.2 (by simp [counter, hp])⟩
    · exact ⟨.emit, decodeSeq_eq_ok.2 (by simp [counter, hp])⟩

/-- Settles O4: the word of an instruction first matches the instruction's own row, and a word that matches a row is the word
of an instruction. -/
theorem decoderFollowsOpcodeTable : Obligations.DecoderFollowsOpcodeTable := by
  refine ⟨fun cw => ?_, fun sw => ?_⟩
  · obtain ⟨word, hw⟩ := encodeOfDecodeGivesWord (.cmd cw) (decodeCmd cw) rfl
    exact findIdx?_cmdRows_of_encode hw word
  · cases h : decodeSeq sw with
    | ok i => exact findIdx?_seqRows_of_encode (encode_of_decodeSeq h).1
    | error e =>
      refine List.findIdx?_eq_none_iff.2 fun r hr => Bool.eq_false_iff.2 fun hm => ?_
      obtain ⟨i, hi⟩ := decodeSeq_of_matches hr hm
      cases h.symm.trans hi

end Sys2Proof
end

section
/-! The sequencer's choice (R197) and its word (R86); the step that runs it (R190). -/

namespace Sys2Proof.Machine

@[simp] theorem seqPhase_seqWord (s : State) : seqPhase s.seqWord = s.phase.code := seqPhase_append _ _

@[simp] theorem seqT_seqWord (s : State) : seqT s.seqWord = s.t := seqT_append _ _

/-- Settles O5, phase by phase: in each at most one pattern of R86 is left. -/
theorem sequencerWordSelectsMicroOp : Obligations.SequencerWordSelectsMicroOp := by
  intro s i ht
  rw [decodeSeq_eq_ok, seqPhase_seqWord, seqT_seqWord]
  cases hp : s.phase with
  | idle | done | error => simp [microOp, Phase.code, hp]
  | sched | rounds => simp [microOp, Phase.code, hp]
  | fill | init | fold | emit =>
    have rest : s.t = 0#6 := ht (by simp [hp]) (by simp [hp])
    simp [microOp, State.padding, Phase.code, hp, rest, and_comm]

theorem code_eq_sched {ph : Phase} : ph.code = 2#4 ↔ ph = .sched := by cases ph <;> decide

theorem code_eq_rounds {ph : Phase} : ph.code = 4#4 ↔ ph = .rounds := by cases ph <;> decide

/-- A sequencer word that decodes has `t = 0` outside SCHED and ROUNDS (R86). -/
theorem t_zero_of_decodeSeq {s : State} {i : Instr} (h : decodeSeq s.seqWord = .ok i) (hs : s.phase ≠ .sched)
    (hr : s.phase ≠ .rounds) : s.t = 0#6 := by
  rw [decodeSeq_eq_ok, seqPhase_seqWord, seqT_seqWord] at h
  rcases h with ⟨hp, -⟩ | ⟨hp, -⟩ | ⟨ht, -⟩
  · exact absurd (code_eq_sched.1 hp) hs
  · exact absurd (code_eq_rounds.1 hp) hr
  · exact ht

/-- Settles O8: the word that decodes is the enabled micro-operation's, which is the step whatever the host presents. -/
theorem stepRunsDecodedMicroOp : Obligations.StepRunsDecodedMicroOp := by
  intro s i h hfill
  have enabled : microOp s = some i := (sequencerWordSelectsMicroOp s i (t_zero_of_decodeSeq h)).2 ⟨h, hfill⟩
  have runs {q : List HostEvent} (hh : s.host = q) (hr : ∀ rest, q ≠ .reset :: rest) :
      step s = exec i { s with host := hostWaits q } := hh ▸ step_of_microOp enabled (hh ▸ hr)
  refine ⟨fun hh => ?_, fun cw rest hh => ?_, fun cw rest hh => runs hh nofun, fun rest hh => runs hh nofun⟩
  · rw [runs hh nofun, hostWaits, ← hh]
  · rw [runs hh nofun, hostWaits, ← hh]

/-- Settles O10: an enabled micro-operation and an accepted command answer a next state, and nothing else can stop a step. -/
theorem stepNeverStops : Obligations.StepNeverStops := by
  intro s
  rcases step_cases s with ⟨_, -, h⟩ | ⟨i, hm, -, h⟩ | ⟨cw, -, -, h⟩ | ⟨-, -, -, h⟩
  · exact ⟨_, h⟩
  · exact h ▸ exec_microOp s i hm _
  · exact h ▸ exec_command _ _ (decodeCmd_isCommand cw)
  · exact ⟨_, h⟩

/-- Settles O6: the words of START and of DATA decode to them, whatever their operand. -/
theorem hashExpandsToStartAndData : Obligations.HashExpandsToStartAndData := by
  intro M hM
  refine ⟨BitVec.ofNat 64 M.length, ?_, ?_⟩
  · rw [BitVec.toNat_ofNat, Nat.mod_eq_of_lt hM]
  · simp [AsmLine.words, decodeCmd_startWord, decodeCmd_dataWord]

/-- Settles O1, word by word. -/
theorem specWordsDecode : Obligations.SpecWordsDecode := by
  unfold Obligations.SpecWordsDecode
  decide

end Sys2Proof.Machine
end

section
/-! The two constant tables against their derivations (R102, R105). -/

namespace Sys2Proof.Machine

/-- The first 64 primes, written out (R102). -/
def romPrimes : List Nat :=
  [2, 3, 5, 7, 11, 13, 17, 19, 23, 29, 31, 37, 41, 43, 47, 53,
   59, 61, 67, 71, 73, 79, 83, 89, 97, 101, 103, 107, 109, 113, 127, 131,
   137, 139, 149, 151, 157, 163, 167, 173, 179, 181, 191, 193, 197, 199, 211, 223,
   227, 229, 233, 239, 241, 251, 257, 263, 269, 271, 277, 281, 283, 293, 307, 311]

/-- They are all the primes below 312, by trial division. -/
theorem filter_trialDivision_eq_romPrimes :
    ((List.range 312).filter fun n => decide (2 ≤ n) && (List.range n).all fun m => decide (m < 2) || n % m != 0) =
      romPrimes := by decide +kernel

/-- R102's formula: scaling the prime by `2^96` before the integer root scales its cube root by `2^32`. -/
theorem toNat_K_eq_nthRoot : ∀ t : Fin 64,
    (K (BitVec.ofNat 6 t.val)).toNat = Nat.nthRoot 3 (romPrimes.getD t.val 0 * 2 ^ 96) % 2 ^ 32 := by decide +kernel

/-- R105's formula, likewise: `2^64` under the square root is `2^32` outside. -/
theorem toNat_IV_eq_nthRoot : ∀ i : Fin 8,
    IV[i.val].toNat = Nat.nthRoot 2 (romPrimes.getD i.val 0 * 2 ^ 64) % 2 ^ 32 := by decide +kernel

/-- The integer root is the `r` that the obligation asks for: it is bounded by `a` from both sides. -/
theorem exists_root_of_eq_nthRoot_mod {k a w : Nat} (hk : k ≠ 0) (hw : w = Nat.nthRoot k a % 2 ^ 32) :
    ∃ r : Nat, r ^ k ≤ a ∧ a < (r + 1) ^ k ∧ w = r % 2 ^ 32 :=
  ⟨Nat.nthRoot k a, Nat.pow_nthRoot_le_iff.2 (.inl hk), Nat.lt_pow_nthRoot_add_one hk a, hw⟩

/-- Settles O33: the trial division finds `romPrimes`, and `r` is the integer root of the scaled prime. -/
theorem constantsAreRootsOfPrimes : Obligations.ConstantsAreRootsOfPrimes := by
  unfold Obligations.ConstantsAreRootsOfPrimes
  rw [filter_trialDivision_eq_romPrimes]
  exact ⟨rfl, fun t => exists_root_of_eq_nthRoot_mod (by decide) (toNat_K_eq_nthRoot t),
    fun i => exists_root_of_eq_nthRoot_mod (by decide) (toNat_IV_eq_nthRoot i)⟩

end Sys2Proof.Machine
end

section
/-! The padding quantities (R110): bits against bytes. -/

namespace Sys2Proof.Machine

theorem padK_eq_emod (n : Nat) : (padK n : Int) = (447 - (8 * n : Int)) % 512 :=
  Int.toNat_of_nonneg (Int.emod_nonneg _ (by decide))

theorem padZ_eq_emod (n : Nat) : (padZ n : Int) = (55 - (n : Int)) % 64 :=
  Int.toNat_of_nonneg (Int.emod_nonneg _ (by decide))

/-- The zero bits are those that complete the terminator byte, and `Z` whole bytes. -/
theorem padK_eq_padZ (n : Nat) : padK n = 8 * padZ n + 7 := by
  have bits := padK_eq_emod n
  have bytes := padZ_eq_emod n
  omega

/-- Message, terminator bit, zero bits and length field are together the bits of `P` bytes. -/
theorem bitLength_eq_padP (n : Nat) : 8 * n + 1 + padK n + 64 = 8 * padP n := by
  have zeros := padK_eq_padZ n
  unfold padP
  omega

/-- No smaller number of zero bits leaves room for the length field at the end of a block. -/
theorem padK_le_of_mod {n k : Nat} (h : (8 * n + 1 + k) % 512 = 448) : padK n ≤ k := by
  have bits := padK_eq_emod n
  omega

theorem padN_eq_div (n : Nat) : padN n = (n + 8) / 64 + 1 := by
  have blocks := padP_eq_blocks n
  have short := padP_le n
  have long := lt_padP n
  omega

/-- Settles O34: the count of zero bits is brought to the count of zero bytes, and the blocks to the padded length. -/
theorem paddingQuantities : Obligations.PaddingQuantities := by
  rintro size l small rfl
  have bits := bitLength_eq_padP size
  have blocks := padP_eq_blocks size
  have zeros := padK_eq_padZ size
  have few := padZ_le size
  refine ⟨by omega, by simpa using padK_eq_emod size, by omega, by omega, by omega, fun _ => padK_le_of_mod, by omega,
    by omega, padZ_eq_emod size, few, by omega, rfl, rfl, blocks, padN_eq_div size⟩

end Sys2Proof.Machine
end

section
/-! The padder's byte function (R112) and the padded message (R111), each by the three parts of the padding: terminator,
zero bytes, length field. -/

namespace Sys2Proof.Machine

theorem padByte_terminator (n : BitVec 61) : padByte n.toNat n = 0x80#8 := if_pos rfl

theorem padByte_zero {j : Nat} {n : BitVec 61} (after : n.toNat < j) (before : j < padP n.toNat - 8) :
    padByte j n = 0x00#8 := by
  rw [padByte, if_neg (by omega), if_pos before]

/-- Byte `m` of the length field is byte `m` of the big-endian bit length (R115). -/
theorem padByte_length (n : BitVec 61) {m : Nat} (hm : m < 8) :
    padByte (padP n.toNat - 8 + m) n = byteBE (8 * n.toNat) 8 m := by
  have long := lt_padP n.toNat
  have shift : padP n.toNat - 1 - (padP n.toNat - 8 + m) = 8 - 1 - m := by omega
  rw [padByte, if_neg (by omega), if_neg (by omega), shift, byteBE]
  apply BitVec.eq_of_toNat_eq
  rw [BitVec.toNat_setWidth, BitVec.toNat_ushiftRight, lenBits_toNat, Nat.shiftRight_eq_div_pow, BitVec.toNat_ofNat]

theorem padMsg_length (M : List Byte) : (padMsg M).length = padP M.length := by
  simp [padMsg, padP]
  omega

theorem padMsg_take (M : List Byte) : (padMsg M).take M.length = M := by
  simp [padMsg]

theorem padMsg_getElem?_terminator (M : List Byte) : (padMsg M)[M.length]? = some 0x80#8 := by
  simp [padMsg]

theorem padMsg_getElem?_zero {M : List Byte} {j : Nat} (after : M.length < j) (before : j < padP M.length - 8) :
    (padMsg M)[j]? = some 0x00#8 := by
  have inside : j - (M.length + 1) < padZ M.length := by unfold padP at before; omega
  have front : j < (M ++ [0x80#8] ++ List.replicate (padZ M.length) 0x00#8).length := by simp; omega
  rw [padMsg, List.getElem?_append_left front, List.getElem?_append_right (by simpa using after)]
  simp [inside]

theorem padMsg_getElem?_length (M : List Byte) {m : Nat} (hm : m < 8) :
    (padMsg M)[padP M.length - 8 + m]? = some (byteBE (8 * M.length) 8 m) := by
  have front : (M ++ [0x80#8] ++ List.replicate (padZ M.length) 0x00#8).length = padP M.length - 8 := by
    simp [padP]
    omega
  rw [padMsg, List.getElem?_append_right (by omega), front, Nat.add_sub_cancel_left]
  simp [hm]

/-- Settles O35, part by part of the padding: terminator, zero bytes, length field. -/
theorem padByteIsPaddedMessage : Obligations.PadByteIsPaddedMessage := by
  intro M size hM
  refine ⟨hM ▸ padMsg_length M, padMsg_take M, fun j first last => ?_⟩
  rcases first.eq_or_lt with rfl | after
  · rw [padByte_terminator, ← hM, padMsg_getElem?_terminator]
  by_cases before : j < padP size.toNat - 8
  · rw [padByte_zero after before, padMsg_getElem?_zero (hM ▸ after) (hM ▸ before)]
  · obtain ⟨m, rfl⟩ := Nat.exists_eq_add_of_le (not_lt.1 before)
    have hm : m < 8 := by omega
    rw [padByte_length size hm, ← hM, padMsg_getElem?_length M hm]

/-- Settles O36; the bound on `P` is that of a whole number of blocks. -/
theorem lengthFieldIsBitLength : Obligations.LengthFieldIsBitLength := by
  intro size
  have short := padP_le size.toNat
  have whole := padP_mod size.toNat
  have small := size.isLt
  exact ⟨lenBits_toNat size, by omega, fun _ => padByte_length size⟩

end Sys2Proof.Machine
end

section
/-! PADBYTE (R116). -/

namespace Sys2Proof.Machine

/-- PADBYTE is enabled in FILL once the message's bytes are in (R29, R116). -/
theorem exec_padbyte_of_padding {s : State} (hp : s.phase = .fill) (done : s.size.toNat ≤ s.p.toNat) :
    exec .padbyte s = .next (s.placeByte (padByte s.p.toNat s.size)) := by
  simp [exec, execPadbyte, State.padding, hp, done]

theorem placeByte_B_getElem (s : State) (b : Byte) {j : Nat} (hj : j < 64) :
    (s.placeByte b).B[j] = if j = s.p.toNat % 64 then b else s.B[j] := by
  simp only [State.placeByte_B, getElem_set_eq]

/-- The byte counter does not wrap inside the padded message. -/
theorem placeByte_p_toNat {s : State} (b : Byte) (inside : s.p.toNat < padP s.size.toNat) :
    (s.placeByte b).p.toNat = s.p.toNat + 1 := by
  have small := padP_lt s.size
  rw [State.placeByte_p, BitVec.toNat_add]
  simp
  omega

/-- Settles O20: PADBYTE places the padder's byte, and placing a byte writes `B`, `p` and `phase` alone. -/
theorem padbytePlacesPaddingByte : Obligations.PadbytePlacesPaddingByte := by
  intro s hp done inside
  refine ⟨_, exec_padbyte_of_padding hp done, fun j => placeByte_B_getElem s _ j.isLt,
    placeByte_p_toNat _ inside, ?_, rfl⟩
  rw [State.placeByte_phase, hp]

end Sys2Proof.Machine
end

section
/-! The four mixing functions by their bits (R130, R131, R152, R153). -/

namespace Sys2Proof.Machine

/-- A shift, unlike a rotation, has nothing to supply beyond the top bit. -/
theorem getLsbD_shr (x : Word) (n i : Nat) : (shr x n).getLsbD i = (decide (i + n < 32) && x.getLsbD (i + n)) := by
  rw [shr, BitVec.getLsbD_ushiftRight, Nat.add_comm n i]
  by_cases inside : i + n < 32
  · simp [inside]
  · simp [inside, BitVec.getLsbD_of_ge x (i + n) (by omega)]

/-- Settles O31: each function is the bitwise sum of its three terms, and each term is known by its bits. -/
theorem mixingFunctionsBits : Obligations.MixingFunctionsBits := by
  intro x i hi
  have rot {n : Nat} (hn : n < 32) : (rotr x n).getLsbD i = x.getLsbD ((i + n) % 32) := getLsbD_rotr x hn hi
  refine ⟨?_, ?_, ?_, ?_⟩
  · rw [sigma0, BitVec.getLsbD_xor, BitVec.getLsbD_xor, rot (by decide), rot (by decide), getLsbD_shr]
  · rw [sigma1, BitVec.getLsbD_xor, BitVec.getLsbD_xor, rot (by decide), rot (by decide), getLsbD_shr]
  · rw [bigSigma0, BitVec.getLsbD_xor, BitVec.getLsbD_xor, rot (by decide), rot (by decide), rot (by decide)]
  · rw [bigSigma1, BitVec.getLsbD_xor, BitVec.getLsbD_xor, rot (by decide), rot (by decide), rot (by decide)]

end Sys2Proof.Machine
end

section
/-! LOADW and EXPAND where the sequencer enables them (R132, R133). -/

namespace Sys2Proof.Machine

/-- The operand of the enabled micro-operation of SCHED, row by row, is the round counter (R86, R197). -/
theorem schedOp_cases (t : BitVec 6) :
    (∃ k : BitVec 4, schedOp t = .loadw k ∧ t.toNat = k.toNat) ∨
    (∃ k : BitVec 4, schedOp t = .expandLow k ∧ t.toNat = 16 + k.toNat) ∨
    (∃ k : BitVec 5, schedOp t = .expandHigh k ∧ t.toNat = 32 + k.toNat) := by
  unfold schedOp
  split_ifs with low mid
  · exact .inl ⟨_, rfl, by simp; omega⟩
  · exact .inr (.inl ⟨_, rfl, by simp; omega⟩)
  · exact .inr (.inr ⟨_, rfl, by simp; omega⟩)

theorem exec_loadw_of_sched {s : State} {k : BitVec 4} (hp : s.phase = .sched) (ht : s.t.toNat = k.toNat) :
    exec (.loadw k) s = .next (s.loadWord k) := by
  have here : s.t = 0b00#2 ++ k := BitVec.eq_of_toNat_eq (by rw [append_toNat, ht]; simp)
  simp [exec, execLoadw, hp, here]

theorem exec_expandLow_of_sched {s : State} {k : BitVec 4} (hp : s.phase = .sched) (ht : s.t.toNat = 16 + k.toNat) :
    exec (.expandLow k) s = .next (s.expand s.t) := by
  have here : s.t = 0b01#2 ++ k := BitVec.eq_of_toNat_eq (by rw [append_toNat, ht]; simp)
  simp [exec, execExpandLow, hp, ← here]

theorem exec_expandHigh_of_sched {s : State} {k : BitVec 5} (hp : s.phase = .sched) (ht : s.t.toNat = 32 + k.toNat) :
    exec (.expandHigh k) s = .next (s.expand s.t) := by
  have here : s.t = 0b1#1 ++ k := BitVec.eq_of_toNat_eq (by rw [append_toNat, ht]; simp)
  simp [exec, execExpandHigh, hp, ← here]

/-- Settles O21: the word read from `B` is the number of its four bytes, and the counter does not wrap below 16. -/
theorem loadwLoadsBigEndianWord : Obligations.LoadwLoadsBigEndianWord := by
  intro s k hp ht
  have hk := k.isLt
  refine ⟨s.loadWord k, exec_loadw_of_sched hp ht, fun j hj => ?_, ?_, ?_, rfl⟩
  · rw [State.loadWord_W, Vector.getElem_set_ne _ _ hj.symm]
  · simp only [State.loadWord_W, Vector.getElem_set_self]
    exact be32_toNat _ _ _ _
  · rw [State.loadWord_t, succ_toNat _ (by intro h; simp [h] at ht; omega), ht]

/-- Settles O22: both rows are the one effect, which derives the word of the round counter. -/
theorem expandDerivesScheduleWord : Obligations.ExpandDerivesScheduleWord := by
  intro s i n low high hp ht row
  subst ht
  have runs : exec i s = .next (s.expand s.t) := by
    rcases row with ⟨k, rfl, hk⟩ | ⟨k, rfl, hk⟩
    · exact exec_expandLow_of_sched hp hk
    · exact exec_expandHigh_of_sched hp hk
  have last_iff : s.t = 63#6 ↔ s.t.toNat = 63 := BitVec.toNat_inj.symm
  refine ⟨s.expand s.t, runs, fun j hj => ?_, ?_, fun last => ?_, fun more => ?_, rfl⟩
  · rw [State.expand_W, Vector.getElem_set_ne _ _ hj.symm]
  · simp only [State.expand_W, Vector.getElem_set_self]
    exact expandWord_eq s.W s.t low
  · simp [last_iff.2 last]
  · have not_last : s.t ≠ 63#6 := mt last_iff.1 more.ne
    rw [State.expand_t, State.expand_phase, if_neg not_last, if_neg not_last]
    exact ⟨succ_toNat s.t not_last, hp⟩

end Sys2Proof.Machine
end

section
/-! The data invariant phase by phase, and the effect LOADW and EXPAND share: word `t` of the schedule is written. -/

namespace Sys2Proof.Machine

/-! What the invariant says in one phase. -/

theorem dataInv_sched {s : State} (hp : s.phase = .sched) :
    s.DataInv ↔ ∀ i : Fin 64, i.val < s.t.toNat → s.W[i.val] = (schedule s.B)[i.val] := by
  simp only [State.DataInv, hp]

theorem dataInv_init {s : State} (hp : s.phase = .init) : s.DataInv ↔ s.W = schedule s.B := by
  simp only [State.DataInv, hp]

theorem dataInv_rounds {s : State} (hp : s.phase = .rounds) :
    s.DataInv ↔ s.W = schedule s.B ∧ s.wv = roundsUpTo s.H s.W s.t.toNat := by
  simp only [State.DataInv, hp]

theorem dataInv_fold {s : State} (hp : s.phase = .fold) :
    s.DataInv ↔ s.W = schedule s.B ∧ s.wv = roundsUpTo s.H s.W 64 := by
  simp only [State.DataInv, hp]

theorem dataInv_done {s : State} (hp : s.phase = .done) : s.DataInv ↔ s.D = digestOf s.H := by
  simp only [State.DataInv, hp]

/-- In the other phases nothing is asked of the data registers. -/
theorem dataInv_of_phase {s : State} (hp : s.phase = .idle ∨ s.phase = .fill ∨ s.phase = .emit ∨ s.phase = .error) :
    s.DataInv := by
  rcases hp with hp | hp | hp | hp <;> simp [State.DataInv, hp]

/-- The invariant says nothing of the host. -/
theorem State.DataInv.with_host {s : State} (h : s.DataInv) (q : List HostEvent) : { s with host := q }.DataInv := h

/-! The word the expander writes. -/

/-- Word `t` of the schedule of `B` written to `W`, and `t` counted (R132, R133, R134).  After `t = 63` the six bits of the
counter wrap to the 0 that R133 asks for. -/
def State.writeScheduleWord (s : State) : State :=
  { s with
    W := s.W.set s.t.toNat (schedule s.B)[s.t.toNat],
    t := s.t + 1#6,
    phase := if s.t = 63#6 then .init else .sched }

/-- LOADW takes the word from the block (R132). -/
theorem loadWord_eq_writeScheduleWord {s : State} {k : BitVec 4} (hp : s.phase = .sched) (ht : s.t.toNat = k.toNat) :
    s.loadWord k = s.writeScheduleWord := by
  have hk := k.isLt
  have word : memRead4 s.B (4 * k.toNat) (by omega) = (schedule s.B)[k.toNat] := (schedule_low s.B k.toNat hk).symm
  have not_last : s.t ≠ 63#6 := by intro h; simp [h] at ht; omega
  simp only [State.loadWord, State.writeScheduleWord, ht, word, if_neg not_last, ← hp]

/-- EXPAND derives the word from the words before it, which the invariant knows (R133). -/
theorem expand_eq_writeScheduleWord {s : State} (h : s.DataInv) (hp : s.phase = .sched) (ht : 16 ≤ s.t.toNat) :
    s.expand s.t = s.writeScheduleWord := by
  have earlier (i : Nat) (hi : i < s.t.toNat) : s.W[i] = (schedule s.B)[i] :=
    (dataInv_sched hp).1 h ⟨i, by omega⟩ hi
  have word : expandWord s.W s.t = (schedule s.B)[s.t.toNat] := by
    rw [expandWord_eq s.W s.t ht, schedule_high s.B s.t.toNat ht s.t.isLt, earlier _ (by omega), earlier _ (by omega),
      earlier _ (by omega), earlier _ (by omega)]
  have count : (if s.t = 63#6 then 0#6 else s.t + 1#6) = s.t + 1#6 := by
    split_ifs with last
    · rw [last]; rfl
    · rfl
  simp only [State.expand, State.writeScheduleWord, word, count, hp]

/-- One more word of the schedule is in `W`; after the last, all of it (R134). -/
theorem State.DataInv.writeScheduleWord {s : State} (h : s.DataInv) (hp : s.phase = .sched) :
    s.writeScheduleWord.DataInv := by
  have written (i : Nat) (hi : i < 64) (hle : i ≤ s.t.toNat) : s.writeScheduleWord.W[i] = (schedule s.B)[i] := by
    simp only [State.writeScheduleWord, getElem_set_eq]
    split_ifs with new
    · simp only [new]
    · exact (dataInv_sched hp).1 h ⟨i, hi⟩ (lt_of_le_of_ne hle new)
  by_cases last : s.t = 63#6
  · refine (dataInv_init (if_pos last)).2 (Vector.ext fun i hi => written i hi ?_)
    rw [last]; exact Nat.le_of_lt_succ hi
  · have counted : s.writeScheduleWord.t.toNat = s.t.toNat + 1 := succ_toNat s.t last
    exact (dataInv_sched (if_neg last)).2 fun i hi => written i i.isLt (by omega)

end Sys2Proof.Machine
end

section
/-! The data invariant through every step (R134, R157, R181). -/

namespace Sys2Proof.Machine

/-- A round at round counter `t` is stage `t` of the compressor (R157). -/
theorem roundsUpTo_succ (Hin : Vector Word 8) (S : Vector Word 64) (t : BitVec 6) :
    roundsUpTo Hin S (t.toNat + 1) = roundStage (roundsUpTo Hin S t.toNat) (K t) S[t.toNat] := by
  simp only [roundsUpTo, BitVec.ofNat_toNat, BitVec.setWidth_eq]

/-- A byte that fills the buffer enters SCHED with no word written yet, as `t` is 0 in FILL (R30). -/
theorem dataInv_placeByte {s : State} (hc : s.CtrlInv) (hp : s.phase = .fill) (b : Byte) : (s.placeByte b).DataInv := by
  have rest : s.t = 0#6 := hc.t_zero (by simp [hp]) (by simp [hp])
  by_cases full : (s.p.toNat + 1) % 64 = 0
  · exact (dataInv_sched (by simp [full])).2 fun i hi => by simp [rest] at hi
  · exact dataInv_of_phase (by simp [full, hp])

/-- INITWV starts from the hash state, with no round done (R154, R157). -/
theorem State.DataInv.loadVars {s : State} (h : s.DataInv) (hp : s.phase = .init) (ht : s.t = 0#6) :
    s.loadVars.DataInv :=
  (dataInv_rounds rfl).2 ⟨(dataInv_init hp).1 h, by rw [State.loadVars_t, ht]; rfl⟩

/-- A round does one more stage; after the last, all 64 are done (R155, R157). -/
theorem State.DataInv.mixRound {s : State} (h : s.DataInv) (hp : s.phase = .rounds) : (s.mixRound s.t).DataInv := by
  obtain ⟨hW, hwv⟩ := (dataInv_rounds hp).1 h
  have stage (n : Nat) (hn : n = s.t.toNat + 1) : (s.mixRound s.t).wv = roundsUpTo s.H s.W n := by
    rw [State.mixRound_wv, hwv, hn, roundsUpTo_succ]
  by_cases last : s.t = 63#6
  · exact (dataInv_fold (by simp [last])).2 ⟨hW, stage 64 (by rw [last]; rfl)⟩
  · have counted : (s.mixRound s.t).t.toNat = s.t.toNat + 1 := by
      rw [State.mixRound_t, if_neg last, succ_toNat s.t last]
    exact (dataInv_rounds (by simp [last, hp])).2 ⟨hW, stage _ counted⟩

/-- After FOLD nothing is asked: the block is in the hash state, and the digest is not written (R156). -/
theorem dataInv_foldVars (s : State) : s.foldVars.DataInv := by
  by_cases last : s.p.toNat = padP s.size.toNat
  · exact dataInv_of_phase (by simp [last])
  · exact dataInv_of_phase (by simp [last])

/-- EMIT writes the digest of the hash state it leaves as it is (R181). -/
theorem dataInv_writeOut (s : State) : s.writeOut.DataInv :=
  (dataInv_done (State.writeOut_phase s)).2 (by simp [writeDigest_eq])

theorem dataInv_raise (s : State) (e : Err) : (s.raise e).DataInv := dataInv_of_phase (by simp)

theorem dataInv_acceptStart (n : BitVec 64) (s : State) : (acceptStart n s).DataInv := by
  rcases acceptStart_cases n s with ha | ha | ha <;> rw [ha]
  · exact dataInv_raise s _
  · exact dataInv_raise s _
  · exact dataInv_of_phase (by simp)

theorem State.DataInv.acceptData {s : State} (h : s.DataInv) (hc : s.CtrlInv) (b : Byte) :
    (acceptData b s).DataInv := by
  rcases acceptData_cases b s with ha | ⟨hp, ha⟩ | ha <;> rw [ha]
  · exact h
  · exact dataInv_placeByte hc hp b
  · exact dataInv_raise s _

theorem State.DataInv.acceptIllegal {s : State} (h : s.DataInv) : (acceptIllegal s).DataInv := by
  rcases acceptIllegal_cases s with ha | ha <;> rw [ha]
  · exact h
  · exact dataInv_raise s _

/-- A step keeps the data invariant where the control registers hold together, whatever it does. -/
theorem State.DataInv.step {s t : State} (h : s.DataInv) (hc : s.CtrlInv) (hst : step s = .next t) : t.DataInv := by
  rcases step_effect s t hst with ⟨rest, -, rfl⟩ | ⟨-, ⟨hp, -, rfl⟩ | ⟨hp, low, rfl⟩ | ⟨hp, high, rfl⟩ | ⟨hp, rfl⟩ |
    ⟨hp, rfl⟩ | ⟨-, rfl⟩ | ⟨-, rfl⟩ | ⟨-, cw, -, ⟨n, -, rfl⟩ | ⟨b, -, rfl⟩ | ⟨-, rfl⟩⟩ | ⟨-, -, rfl⟩⟩
  case inl => exact dataInv_of_phase (.inl rfl)
  all_goals refine State.DataInv.with_host ?_ _
  · exact dataInv_placeByte hc hp _
  · rw [loadWord_eq_writeScheduleWord hp (by simp; omega)]
    exact h.writeScheduleWord hp
  · rw [expand_eq_writeScheduleWord h hp high]
    exact h.writeScheduleWord hp
  · exact h.loadVars hp (hc.t_zero (by simp [hp]) (by simp [hp]))
  · exact h.mixRound hp
  · exact dataInv_foldVars s
  · exact dataInv_writeOut s
  · exact dataInv_acceptStart n s
  · exact h.acceptData hc b
  · exact h.acceptIllegal
  · exact h

/-- Settles O42: nothing is asked at reset, and each update of the state keeps the data invariant. -/
theorem dataInvKeptByStep : Obligations.DataInvKeptByStep :=
  ⟨dataInv_of_phase (.inl rfl), fun _ _ hc h hst => h.step hc hst⟩

end Sys2Proof.Machine
end

section
/-! The expander's 64 steps (R134). -/

namespace Sys2Proof.Machine

/-- In SCHED the step of a core beside a silent host writes the next word of the schedule. -/
theorem step_sched {s : State} (h : s.DataInv) (hp : s.phase = .sched) (hh : s.host = []) :
    step s = .next s.writeScheduleWord := by
  have enabled : microOp s = some (schedOp s.t) := by simp [microOp, hp]
  have alone : { s with host := hostWaits s.host } = s := by rw [hh, hostWaits, ← hh]
  rw [step_of_microOp enabled (by simp [hh]), alone]
  rcases schedOp_cases s.t with ⟨k, hop, ht⟩ | ⟨k, hop, ht⟩ | ⟨k, hop, ht⟩ <;> rw [hop]
  · rw [exec_loadw_of_sched hp ht, loadWord_eq_writeScheduleWord hp ht]
  · rw [exec_expandLow_of_sched hp ht, expand_eq_writeScheduleWord h hp (by omega)]
  · rw [exec_expandHigh_of_sched hp ht, expand_eq_writeScheduleWord h hp (by omega)]

/-- From word `64 - n` on, `n` steps write the rest of the schedule and change nothing else. -/
theorem run_sched (n : Nat) {s : State} (h : s.DataInv) (hp : s.phase = .sched) (ht : s.t.toNat + n = 64)
    (hh : s.host = []) :
    Sys2Proof.core.run n s = .next { s with W := schedule s.B, t := 0#6, phase := .init } := by
  induction n generalizing s with
  | zero => have := s.t.isLt; omega
  | succ n ih =>
    have h' := h.writeScheduleWord hp
    rw [run_succ n s _ (step_sched h hp hh)]
    by_cases last : s.t = 63#6
    · have hp' : s.writeScheduleWord.phase = .init := if_pos last
      have ht' : s.writeScheduleWord.t = 0#6 := by simp [State.writeScheduleWord, last]
      have hW' : s.writeScheduleWord.W = schedule s.B := (dataInv_init hp').1 h'
      have at_end : s.t.toNat = 63 := congrArg BitVec.toNat last
      obtain rfl : n = 0 := by omega
      rw [run_zero, ← hp', ← ht', ← hW']
      rfl
    · have counted : s.writeScheduleWord.t.toNat = s.t.toNat + 1 := succ_toNat s.t last
      exact ih h' (if_neg last) (by omega) hh

/-- Settles O44: the words of the schedule by their two rules, and the 64 steps from a buffer with no word written. -/
theorem scheduleStepsComputeSchedule : Obligations.ScheduleStepsComputeSchedule := by
  refine ⟨fun b t ht => ?_, schedule_high, fun s hp ht hh => ?_⟩
  · rw [schedule_low b t ht, be32_toNat]
  · have none_written : s.DataInv := (dataInv_sched hp).2 fun i hi => by simp [ht] at hi
    exact run_sched 64 none_written hp (by simp [ht]) hh

end Sys2Proof.Machine
end

section
/-! INITWV, ROUND and FOLD where the sequencer enables them (R154, R155, R156). -/

namespace Sys2Proof.Machine

theorem exec_initwv_of_init {s : State} (hp : s.phase = .init) : exec .initwv s = .next s.loadVars := by
  simp [exec, execInitwv, hp]

theorem exec_round_of_rounds {s : State} (hp : s.phase = .rounds) : exec (.round s.t) s = .next (s.mixRound s.t) := by
  simp [exec, execRound, hp]

theorem exec_fold_of_fold {s : State} (hp : s.phase = .fold) : exec .fold s = .next s.foldVars := by
  simp [exec, execFold, hp]

/-- Beside a silent host the enabled micro-operation runs from the state as it is (R190). -/
theorem step_of_microOp_silent {s : State} {i : Instr} (hm : microOp s = some i) (hh : s.host = []) :
    step s = exec i s := by
  have alone : { s with host := hostWaits s.host } = s := by rw [hh, hostWaits, ← hh]
  rw [step_of_microOp hm (by simp [hh]), alone]

theorem step_init {s : State} (hp : s.phase = .init) (hh : s.host = []) : step s = .next s.loadVars := by
  have enabled : microOp s = some .initwv := by simp [microOp, hp]
  rw [step_of_microOp_silent enabled hh, exec_initwv_of_init hp]

theorem step_rounds {s : State} (hp : s.phase = .rounds) (hh : s.host = []) : step s = .next (s.mixRound s.t) := by
  have enabled : microOp s = some (.round s.t) := by simp [microOp, hp]
  rw [step_of_microOp_silent enabled hh, exec_round_of_rounds hp]

theorem step_fold {s : State} (hp : s.phase = .fold) (hh : s.host = []) : step s = .next s.foldVars := by
  have enabled : microOp s = some .fold := by simp [microOp, hp]
  rw [step_of_microOp_silent enabled hh, exec_fold_of_fold hp]

end Sys2Proof.Machine
end

section
/-! The compressor's 66 steps (R157). -/

namespace Sys2Proof.Machine

/-- Round `t` on the working variables of the first `t` stages does one more stage, whatever `W` holds (R155, R157). -/
theorem mixRound_wv_of_roundsUpTo {s : State} (hwv : s.wv = roundsUpTo s.H s.W s.t.toNat) :
    (s.mixRound s.t).wv = roundsUpTo s.H s.W (s.t.toNat + 1) := by
  rw [State.mixRound_wv, hwv, roundsUpTo_succ]

/-- From round `64 - n` on, `n` steps do the rest of the stages and change nothing else. -/
theorem run_rounds (n : Nat) {s : State} (hwv : s.wv = roundsUpTo s.H s.W s.t.toNat) (hp : s.phase = .rounds)
    (ht : s.t.toNat + n = 64) (hh : s.host = []) :
    Sys2Proof.core.run n s = .next { s with wv := roundsUpTo s.H s.W 64, t := 0#6, phase := .fold } := by
  induction n generalizing s with
  | zero => have := s.t.isLt; omega
  | succ n ih =>
    have stage := mixRound_wv_of_roundsUpTo hwv
    rw [run_succ n s _ (step_rounds hp hh)]
    by_cases last : s.t = 63#6
    · have at_end : s.t.toNat = 63 := congrArg BitVec.toNat last
      have ht' : (s.mixRound s.t).t = 0#6 := if_pos last
      have hp' : (s.mixRound s.t).phase = .fold := if_pos last
      obtain rfl : n = 0 := by omega
      rw [at_end] at stage
      rw [run_zero, ← stage, ← ht', ← hp']
      rfl
    · have counted : (s.mixRound s.t).t.toNat = s.t.toNat + 1 := by
        rw [State.mixRound_t, if_neg last, succ_toNat s.t last]
      exact ih (by rw [counted]; exact stage) ((if_neg last).trans hp) (by omega) hh

/-- Settles O45: INITWV starts from no stage done, the rounds do all 64, and FOLD adds what they leave. -/
theorem compressStepsComputeCompress : Obligations.CompressStepsComputeCompress := by
  intro s hp ht hh
  have start : s.loadVars.wv = roundsUpTo s.H s.W s.loadVars.t.toNat := by rw [State.loadVars_t, ht]; rfl
  have rounds := run_rounds 64 start (State.loadVars_phase s) (by simp [ht]) hh
  calc Sys2Proof.core.run 66 s
    _ = Sys2Proof.core.run (64 + 1) s.loadVars := run_succ 65 s _ (step_init hp hh)
    _ = Sys2Proof.core.run 1 { s.loadVars with wv := roundsUpTo s.H s.W 64, t := 0#6, phase := .fold } :=
      run_add 64 1 _ _ rounds
    _ = .next (State.foldVars { s.loadVars with wv := roundsUpTo s.H s.W 64, t := 0#6, phase := .fold }) :=
      run_succ 0 _ _ (step_fold rfl hh)
    _ = _ := by rw [← ht]; rfl

end Sys2Proof.Machine
end

section
/-! Each of the compressor's micro-operations by itself, and its two bitwise functions (R150, R151, R154 to R157). -/

namespace Sys2Proof.Machine

/-- Settles O23: `loadVars` takes the eight words in order. -/
theorem initwvLoadsWorkingVariables : Obligations.InitwvLoadsWorkingVariables :=
  fun _ hp => exec_initwv_of_init hp

/-- Settles O24: the round stage reads old values alone, and the counter wraps at round 63 only. -/
theorem roundMixesWorkingVariables : Obligations.RoundMixesWorkingVariables := by
  rintro s _ _ _ hp rfl rfl rfl
  refine ⟨s.mixRound s.t, exec_round_of_rounds hp, rfl, fun last => ⟨if_pos last, if_pos last⟩, fun more => ?_, rfl⟩
  rw [State.mixRound_t, State.mixRound_phase, if_neg more, if_neg more]
  exact ⟨succ_toNat s.t more, hp⟩

/-- Each hash word has the working variable of its place added (R24, R156). -/
theorem addVars_getElem (H : Vector Word 8) (v : WorkVars) (i : Nat) (hi : i < 8) :
    (addVars H v)[i] = H[i] + (#v[v.a, v.b, v.c, v.d, v.e, v.f, v.g, v.h] : Vector Word 8)[i] := by
  interval_cases i <;> rfl

/-- Settles O25: FOLD writes `H` and `phase` alone, and word addition is addition modulo `2^32`. -/
theorem foldAddsWorkingVariables : Obligations.FoldAddsWorkingVariables := by
  intro s hp
  refine ⟨s.foldVars, exec_fold_of_fold hp, fun i => ?_, rfl, rfl⟩
  simp only [State.foldVars_H, addVars_getElem, BitVec.toNat_add]

theorem getLsbD_ch (x y z : Word) {i : Nat} (hi : i < 32) :
    (ch x y z).getLsbD i = if x.getLsbD i then y.getLsbD i else z.getLsbD i := by
  rw [ch, BitVec.getLsbD_xor, BitVec.getLsbD_and, BitVec.getLsbD_and, BitVec.getLsbD_not]
  cases x.getLsbD i <;> simp [hi]

theorem getLsbD_maj (x y z : Word) (i : Nat) :
    (maj x y z).getLsbD i = decide (2 ≤ (x.getLsbD i).toNat + (y.getLsbD i).toNat + (z.getLsbD i).toNat) := by
  have two_of_three : ∀ a b c : Bool,
      ((a && b) ^^ (a && c) ^^ (b && c)) = decide (2 ≤ a.toNat + b.toNat + c.toNat) := by decide
  rw [maj, BitVec.getLsbD_xor, BitVec.getLsbD_xor, BitVec.getLsbD_and, BitVec.getLsbD_and, BitVec.getLsbD_and]
  exact two_of_three _ _ _

/-- Settles O32, from the bits of the two functions. -/
theorem chooseAndMajorityBits : Obligations.ChooseAndMajorityBits :=
  fun x y z i hi => ⟨getLsbD_ch x y z hi, getLsbD_maj x y z i⟩

/-- Settles O43: FOLD is the step, and the invariant knows the working variables it adds. -/
theorem foldCompletesCompression : Obligations.FoldCompletesCompression := by
  intro s t h hp hst hr
  obtain ⟨hW, hwv⟩ := (dataInv_fold hp).1 h
  have enabled : microOp s = some .fold := by simp [microOp, hp]
  have folds : step s = .next (State.foldVars { s with host := hostWaits s.host }) :=
    (step_of_microOp enabled hr).trans (exec_fold_of_fold hp)
  obtain rfl := Host.Outcome.next.inj (hst.symm.trans folds)
  calc addVars s.H s.wv
    _ = compress s.H s.W := by rw [hwv, compress]
    _ = compress s.H (schedule s.B) := by rw [hW]

end Sys2Proof.Machine
end

section
/-! The digest port as the hash words in order (R32, R181). -/

namespace Sys2Proof.Machine

/-- One more field at the low end of the digest port; for a byte it is the step of `digestWord` (R32). -/
def shiftIn {k : Nat} (acc : BitVec 256) (x : BitVec k) : BitVec 256 := (acc <<< k) ||| x.setWidth 256

theorem digestWord_eq_foldl (D : Vector Byte 32) : digestWord D = D.toList.foldl shiftIn 0#256 := rfl

/-- Two fields one after the other go in as their concatenation. -/
theorem shiftIn_append {m n : Nat} (acc : BitVec 256) (x : BitVec m) (y : BitVec n) :
    shiftIn (shiftIn acc x) y = shiftIn acc (x ++ y) := by
  apply BitVec.eq_of_getLsbD_eq
  intro i hi
  simp only [shiftIn, BitVec.getLsbD_or, BitVec.getLsbD_shiftLeft, BitVec.getLsbD_setWidth, BitVec.getLsbD_append]
  by_cases low : i < n
  · have : i < m + n := by omega
    simp [low, this]
  · have in_x : i < m + n ↔ i - n < m := by omega
    have in_port : i - n < 256 := by omega
    have past_y : y.getLsbD i = false := BitVec.getLsbD_of_ge y i (by omega)
    simp [low, hi, in_x, in_port, past_y, Nat.sub_sub, Nat.add_comm n m]

/-- A field as wide as the port fills it. -/
theorem shiftIn_zero (x : BitVec 256) : shiftIn 0#256 x = x := by simp [shiftIn]

/-- The bytes of a word, most significant first (R11). -/
def wordBytes (v : Word) : List Byte := List.ofFn fun j : Fin 4 => byteBE v.toNat 4 j.val

/-- The bytes of a word make up the word again (R11). -/
theorem be32_byteBE (v : Word) :
    be32 (byteBE v.toNat 4 0) (byteBE v.toNat 4 1) (byteBE v.toNat 4 2) (byteBE v.toNat 4 3) = v := by
  apply BitVec.eq_of_toNat_eq
  have := v.isLt
  simp only [be32_toNat, byteBE, BitVec.toNat_ofNat]
  omega

/-- The four bytes of a word go in as the word. -/
theorem foldl_wordBytes (acc : BitVec 256) (v : Word) : (wordBytes v).foldl shiftIn acc = shiftIn acc v := by
  calc (wordBytes v).foldl shiftIn acc
    _ = shiftIn acc (be32 (byteBE v.toNat 4 0) (byteBE v.toNat 4 1) (byteBE v.toNat 4 2) (byteBE v.toNat 4 3)) := by
      rw [be32, ← shiftIn_append, ← shiftIn_append, ← shiftIn_append]; rfl
    _ = shiftIn acc v := by rw [be32_byteBE]

/-- The bytes of the digest are those of its words, word 0 first (R181). -/
theorem toList_digestOf (H : Vector Word 8) :
    (digestOf H).toList = (List.ofFn fun i : Fin 8 => wordBytes H[i]).flatten := by
  have word (i : Nat) (j : Fin 4) : (i * 4 + j.val) / 4 = i := by omega
  have byte (i : Nat) (j : Fin 4) : (i * 4 + j.val) % 4 = j.val := by omega
  rw [digestOf, Vector.toList_ofFn, List.ofFn_mul (m := 8) (n := 4)]
  simp only [word, byte]
  rfl

/-- The port reads the digest as the words of the hash state, word 0 most significant (R32, R181). -/
theorem digestWord_digestOf (H : Vector Word 8) :
    digestWord (digestOf H) = H[0] ++ H[1] ++ H[2] ++ H[3] ++ H[4] ++ H[5] ++ H[6] ++ H[7] := by
  have words : (List.ofFn fun i : Fin 8 => wordBytes H[i]) =
    [H[0], H[1], H[2], H[3], H[4], H[5], H[6], H[7]].map wordBytes := rfl
  rw [digestWord_eq_foldl, toList_digestOf, words, List.foldl_flatten, List.foldl_map]
  simp only [foldl_wordBytes, List.foldl_cons, List.foldl_nil, shiftIn_append]
  exact shiftIn_zero _

theorem exec_emit_of_emit {s : State} (hp : s.phase = .emit) : exec .emit s = .next s.writeOut := by
  simp [exec, execEmit, hp]

/-- Settles O26: EMIT leaves the digest of `H` in `D`, and the port shows `D` in order. -/
theorem emitWritesDigest : Obligations.EmitWritesDigest := by
  intro s hp
  refine ⟨s.writeOut, exec_emit_of_emit hp, fun i j => ?_, ?_, rfl⟩
  · have word : (4 * i.val + j.val) / 4 = i.val := by omega
    have byte : (4 * i.val + j.val) % 4 = j.val := by omega
    simp only [State.writeOut_D, writeDigest_getElem, word, byte]
  · simp [State.digest, writeDigest_eq, digestWord_digestOf]

end Sys2Proof.Machine
end

section
/-! What a step is, by what the host does at a core that accepts a command (R190, R191, R244, R260). -/

namespace Sys2Proof.Machine

/-- A core that accepts a command has no enabled micro-operation (R190). -/
theorem microOp_of_cmdReady {s : State} (hr : s.cmdReady = true) : microOp s = none :=
  Option.isNone_iff_eq_none.1 (by rw [← Option.not_isSome, microOp_isSome, hr]; rfl)

theorem cmdReady_of_microOp {s : State} (hm : microOp s = none) : s.cmdReady = true := by
  have hr := microOp_isSome s
  rw [hm] at hr
  simpa using hr

theorem step_of_reset {s : State} {rest : List HostEvent} (hh : s.host = .reset :: rest) :
    step s = .next { s.applyReset with host := rest } := by
  simp [step, nextAction, hh]

/-- A presented command is accepted, and is over (R191). -/
theorem step_of_presented {s : State} {cw : CmdWord} (hr : s.cmdReady = true) (hp : presented s.host = some cw) :
    step s = exec (decodeCmd cw) { s with host := s.host.tail } := by
  have idle := microOp_of_cmdReady hr
  rcases step_cases s with ⟨_, hh, -⟩ | ⟨_, hm, -⟩ | ⟨_, -, hp', h⟩ | ⟨-, hp', -⟩
  · rw [hh] at hp; cases hp
  · cases idle.symm.trans hm
  · obtain rfl := Option.some.inj (hp.symm.trans hp')
    exact h
  · cases hp.symm.trans hp'

/-- With nothing presented, the core waits (R244). -/
theorem step_of_waiting {s : State} (hr : s.cmdReady = true) (hp : presented s.host = none)
    (hreset : ∀ rest, s.host ≠ .reset :: rest) : step s = .next { s with host := s.host.tail } := by
  have idle := microOp_of_cmdReady hr
  rcases step_cases s with ⟨rest, hh, -⟩ | ⟨_, hm, -⟩ | ⟨_, -, hp', -⟩ | ⟨-, -, -, h⟩
  · exact absurd hh (hreset rest)
  · cases idle.symm.trans hm
  · cases hp.symm.trans hp'
  · exact h

/-- A core that accepts no command is working on a message (R34). -/
theorem busy_of_not_cmdReady {s : State} (hr : s.cmdReady = false) : s.busy = true := by
  cases hp : s.phase <;> simp [State.cmdReady, State.busy, hp] at hr ⊢

/-- Settles O7: a held word and an offered one are both the presented command. -/
theorem stepRunsAcceptedCommand : Obligations.StepRunsAcceptedCommand := by
  intro s cw rest hr hh
  obtain ⟨shown, left⟩ : presented s.host = some cw ∧ s.host.tail = rest := by
    rcases hh with hh | hh <;> simp [hh, presented]
  rw [step_of_presented hr shown, left]

/-- Settles O11: a micro-operation is enabled where the port accepts nothing, and there the core is busy. -/
theorem microOpEnabledIffNotReady : Obligations.MicroOpEnabledIffNotReady := by
  intro s
  rw [microOp_isSome, Bool.not_eq_true']
  exact ⟨fun hr => ⟨hr, busy_of_not_cmdReady hr⟩, And.left⟩

end Sys2Proof.Machine
end

section
/-! What an accepted command does in the phase it belongs to, and outside it (R192 to R196). -/

namespace Sys2Proof.Machine

/-- IDLE, DONE and ERROR accept every command (R34). -/
theorem cmdReady_of_rest {s : State} (hp : s.phase = .idle ∨ s.phase = .done ∨ s.phase = .error) : s.cmdReady = true :=
  (cmdReady_iff s).2 (by tauto)

theorem acceptStart_of_legal {s : State} {n : BitVec 64} (hp : s.phase ≠ .fill) (hn : n.toNat < 2 ^ 61) :
    acceptStart n s = s.beginMessage (n.extractLsb' 0 61) := by
  rw [acceptStart, if_neg hp, if_pos hn]

theorem acceptData_of_fill {s : State} (hp : s.phase = .fill) (b : Byte) : acceptData b s = s.placeByte b := by
  simp [acceptData, hp]

/-- A START of a legal size, wherever the core waits without a message (R192). -/
theorem exec_start_of_legal {s : State} {n : BitVec 64} (hp : s.phase = .idle ∨ s.phase = .done ∨ s.phase = .error)
    (hn : n.toNat < 2 ^ 61) : exec (.start n) s = .next (s.beginMessage (n.extractLsb' 0 61)) := by
  have not_fill : s.phase ≠ .fill := by rcases hp with hp | hp | hp <;> simp [hp]
  rw [exec, execStart, atPort, cmdReady_of_rest hp, if_pos rfl, acceptStart_of_legal not_fill hn]

/-- A DATA of a starved FILL (R194). -/
theorem exec_data_of_starved {s : State} (hp : s.phase = .fill) (starved : s.p.toNat < s.size.toNat) (b : Byte) :
    exec (.data b) s = .next (s.placeByte b) := by
  have ready : s.cmdReady = true := (cmdReady_iff s).2 (by simp [hp, starved])
  rw [exec, execData, atPort, ready, if_pos rfl, acceptData_of_fill hp]

/-- A size that START can announce is its low 61 bits (R28, R192). -/
theorem toNat_extractLsb'_of_legal {n : BitVec 64} (hn : n.toNat < 2 ^ 61) :
    (n.extractLsb' 0 61).toNat = n.toNat := by
  rw [BitVec.extractLsb'_toNat, Nat.shiftRight_zero, Nat.mod_eq_of_lt hn]

/-- Settles O13: a legal START begins the message, and its 61 low bits are the size. -/
theorem startBeginsMessage : Obligations.StartBeginsMessage :=
  fun _ size hp hn => ⟨size.extractLsb' 0 61, toNat_extractLsb'_of_legal hn, exec_start_of_legal hp hn⟩

/-- Settles O15: DATA places its byte, and placing a byte writes `B`, `p` and `phase` alone. -/
theorem dataStoresNextByte : Obligations.DataStoresNextByte := by
  intro s byte hp starved
  have inside : s.p.toNat < padP s.size.toNat := by have := lt_padP s.size.toNat; omega
  refine ⟨_, exec_data_of_starved hp starved byte, fun j => placeByte_B_getElem s byte j.isLt,
    placeByte_p_toNat byte inside, ?_, rfl⟩
  rw [State.placeByte_phase, hp]

/-- Settles O17: in ERROR the two meanings accept the command and keep the state. -/
theorem errorDiscardsDataAndIllegal : Obligations.ErrorDiscardsDataAndIllegal := by
  rintro s i hp (illegal | ⟨byte, rfl⟩)
  · rw [exec_isIllegal i s illegal, atPort, acceptIllegal, if_pos hp, ite_self]
  · rw [exec, execData, atPort, acceptData, if_pos hp, ite_self]

end Sys2Proof.Machine
end

section
/-! Where a micro-operation answers a next state (R197), and what it answers elsewhere (log entry 6). -/

namespace Sys2Proof.Machine

/-- A micro-operation has its effect or stops under its mnemonic. -/
theorem exec_of_not_command {i : Instr} (hi : i.isCommand = false) (s : State) :
    (∃ t, exec i s = .next t) ∨ ∃ mnemonic, exec i s = .fault (.notEnabled mnemonic) := by
  have answers (b : Bool) (m : String) (e : State) :
      (∃ t, whenEnabled b m e = .next t) ∨ ∃ m', whenEnabled b m e = .fault (.notEnabled m') := by
    cases b
    · exact .inr ⟨m, rfl⟩
    · exact .inl ⟨e, rfl⟩
  cases i with
  | start | data | illegalData | illegalOp0 | illegalOp3 | illegalOp4to7 | illegalOp8toF => cases hi
  | padbyte | loadw | expandLow | expandHigh | initwv | round | fold | emit => exact answers _ _ _

theorem schedOp_loadw : ∀ k : BitVec 4, schedOp (0b00#2 ++ k) = .loadw k := by decide

theorem schedOp_expandLow : ∀ k : BitVec 4, schedOp (0b01#2 ++ k) = .expandLow k := by decide

theorem schedOp_expandHigh : ∀ k : BitVec 5, schedOp (0b1#1 ++ k) = .expandHigh k := by decide

/-- The `require` clause of each micro-operation is its row of the sequencer's table (R197). -/
theorem microOp_of_exec_eq_next {i : Instr} {s t : State} (hi : i.isCommand = false) (h : exec i s = .next t) :
    microOp s = some i := by
  cases i with
  | start | data | illegalData | illegalOp0 | illegalOp3 | illegalOp4to7 | illegalOp8toF => cases hi
  | padbyte =>
    obtain ⟨⟨hp, done⟩, -⟩ : (s.phase = .fill ∧ s.padding = true) ∧ _ := by simpa [exec, execPadbyte] using h
    simp [microOp, hp, done]
  | loadw k =>
    obtain ⟨⟨hp, ht⟩, -⟩ : (s.phase = .sched ∧ s.t = 0b00#2 ++ k) ∧ _ := by simpa [exec, execLoadw] using h
    simp only [microOp, hp, ht, schedOp_loadw]
  | expandLow k =>
    obtain ⟨⟨hp, ht⟩, -⟩ : (s.phase = .sched ∧ s.t = 0b01#2 ++ k) ∧ _ := by simpa [exec, execExpandLow] using h
    simp only [microOp, hp, ht, schedOp_expandLow]
  | expandHigh k =>
    obtain ⟨⟨hp, ht⟩, -⟩ : (s.phase = .sched ∧ s.t = 0b1#1 ++ k) ∧ _ := by simpa [exec, execExpandHigh] using h
    simp only [microOp, hp, ht, schedOp_expandHigh]
  | round k =>
    obtain ⟨⟨hp, rfl⟩, -⟩ : (s.phase = .rounds ∧ s.t = k) ∧ _ := by simpa [exec, execRound] using h
    simp only [microOp, hp]
  | initwv =>
    obtain ⟨hp, -⟩ : s.phase = .init ∧ _ := by simpa [exec, execInitwv] using h
    simp only [microOp, hp]
  | fold =>
    obtain ⟨hp, -⟩ : s.phase = .fold ∧ _ := by simpa [exec, execFold] using h
    simp only [microOp, hp]
  | emit =>
    obtain ⟨hp, -⟩ : s.phase = .emit ∧ _ := by simpa [exec, execEmit] using h
    simp only [microOp, hp]

/-- Settles O27: a micro-operation that answers a next state is the enabled one, so any other stops. -/
theorem microOpRunsOnlyWhereEnabled : Obligations.MicroOpRunsOnlyWhereEnabled := by
  refine fun s i hi => ⟨fun hm => exec_microOp s i hm s.host, fun hm => ?_⟩
  rcases exec_of_not_command hi s with ⟨t, h⟩ | stops
  · exact absurd (microOp_of_exec_eq_next hi h) hm
  · exact stops

end Sys2Proof.Machine
end

section
/-! The phase after each accepted command, and the phase graph (R199). -/

namespace Sys2Proof.Machine

theorem acceptStart_phase (n : BitVec 64) (s : State) :
    (acceptStart n s).phase = .fill ∨ (acceptStart n s).phase = .error := by
  rcases acceptStart_cases n s with ha | ha | ha <;> simp [ha]

/-- A DATA ends in ERROR wherever it is not stored: there it is out of protocol, or discarded (R195, R196). -/
theorem acceptData_phase_of_not_fill {s : State} (hp : s.phase ≠ .fill) (b : Byte) :
    (acceptData b s).phase = .error := by
  unfold acceptData
  split_ifs with he
  · exact he
  · rfl

theorem acceptIllegal_phase (s : State) : (acceptIllegal s).phase = .error := by
  unfold acceptIllegal
  split_ifs with he
  · exact he
  · rfl

/-- Settles O48: the edges of each kind of step, from the case analysis of a step. -/
theorem stepFollowsPhaseGraph : Obligations.StepFollowsPhaseGraph := by
  intro s t hst hreset
  rcases step_effect s t hst with ⟨rest, hh, -⟩ | ⟨-, ⟨hp, -, rfl⟩ | ⟨hp, -, rfl⟩ | ⟨hp, -, rfl⟩ | ⟨hp, rfl⟩ |
    ⟨hp, rfl⟩ | ⟨hp, rfl⟩ | ⟨hp, rfl⟩ | ⟨hr, cw, -, ⟨n, -, rfl⟩ | ⟨b, -, rfl⟩ | ⟨-, rfl⟩⟩ | ⟨hr, -, rfl⟩⟩
  · exact absurd hh (hreset rest)
  · by_cases full : (s.p.toNat + 1) % 64 = 0 <;> simp [hp, full]
  · simp [hp]
  · by_cases last : s.t = 63#6 <;> simp [hp, last]
  · simp [hp]
  · by_cases last : s.t = 63#6 <;> simp [hp, last]
  · by_cases last : s.p.toNat = padP s.size.toNat <;> simp [hp, last]
  · simp [hp]
  · rcases (cmdReady_iff s).1 hr with hp | hp | hp | ⟨hp, -⟩ <;>
      rcases acceptStart_phase n s with ha | ha <;> simp [hp, ha]
  · by_cases hp : s.phase = .fill
    · by_cases full : (s.p.toNat + 1) % 64 = 0 <;> simp [acceptData_of_fill hp, hp, full]
    · rcases (cmdReady_iff s).1 hr with hp' | hp' | hp' | ⟨hp', -⟩
      · simp [acceptData_phase_of_not_fill hp, hp']
      · simp [acceptData_phase_of_not_fill hp, hp']
      · simp [acceptData_phase_of_not_fill hp, hp']
      · exact absurd hp' hp
  · rcases (cmdReady_iff s).1 hr with hp | hp | hp | ⟨hp, -⟩ <;> simp [acceptIllegal_phase, hp]
  · rcases (cmdReady_iff s).1 hr with hp | hp | hp | ⟨hp, -⟩ <;> simp [hp]

end Sys2Proof.Machine
end

section
/-! The lifetime of the digest (R207). -/

namespace Sys2Proof.Machine

theorem digest_of_not_valid {s : State} (h : s.digestValid = false) : s.digest = none := by
  simp [State.digest, h]

/-- In DONE every accepted command begins a message or raises an error, and both take the digest away (R192, R235). -/
theorem digestValid_of_exec_command {i : Instr} {s t : State} (hi : i.isCommand = true) (hp : s.phase = .done)
    (h : exec i s = .next t) : t.digestValid = false := by
  have ready : s.cmdReady = true := cmdReady_of_rest (.inr (.inl hp))
  rcases isCommand_cases i hi with ⟨n, rfl⟩ | ⟨b, rfl⟩ | illegal
  · obtain rfl : t = acceptStart n s := by simpa [exec, execStart, ready] using h
    rcases acceptStart_cases n s with ha | ha | ha <;> rw [ha] <;> rfl
  · obtain rfl : t = acceptData b s := by simpa [exec, execData, ready] using h
    simp [acceptData, hp]
  · obtain rfl : t = acceptIllegal s := by simpa [exec_isIllegal i s illegal, ready] using h
    simp [acceptIllegal, hp]

/-- Settles O51: DONE waits, accepts or is reset, and only waiting leaves `digest_valid` at 1. -/
theorem digestStaysUntilCommandOrReset : Obligations.DigestStaysUntilCommandOrReset := by
  intro s t hp _ hst
  have ready : s.cmdReady = true := cmdReady_of_rest (.inr (.inl hp))
  refine ⟨fun silent hreset => ?_, fun cw hcw => ?_, fun rest hh => ?_⟩
  · obtain rfl := Host.Outcome.next.inj (hst.symm.trans (step_of_waiting ready silent hreset))
    exact ⟨rfl, hp⟩
  · have accepted := (step_of_presented ready hcw).symm.trans hst
    have here : ({ s with host := s.host.tail } : State).phase = .done := hp
    exact digest_of_not_valid (digestValid_of_exec_command (decodeCmd_isCommand cw) here accepted)
  · obtain rfl := Host.Outcome.next.inj (hst.symm.trans (step_of_reset hh))
    exact digest_of_not_valid rfl

end Sys2Proof.Machine
end

section
/-! The ends of a run (R204, R244). -/

namespace Sys2Proof.Machine

theorem ended_iff (s : State) : s.ended = true ↔ s.host = [] ∧ microOp s = none := by
  simp [State.ended]

/-- Outside ERROR there is no error to report (R33). -/
theorem State.CtrlInv.err_none {s : State} (h : s.CtrlInv) (hp : s.phase ≠ .error) : s.err = .none :=
  not_not.1 (mt h.err_iff.1 hp)

/-- Outside DONE there is no digest to show (R239). -/
theorem State.CtrlInv.not_valid {s : State} (h : s.CtrlInv) (hp : s.phase ≠ .done) : s.digestValid = false :=
  Bool.eq_false_iff.2 (mt h.valid_iff.1 hp)

/-- Settles O52: an ended run waits with nothing presented, in one of the phases that accept commands. -/
theorem endedRunStaysEnded : Obligations.EndedRunStaysEnded := by
  intro s hc hend
  obtain ⟨hh, hm⟩ := (ended_iff s).1 hend
  have ready := cmdReady_of_microOp hm
  have waits := step_of_waiting ready (by simp [hh, presented]) (by simp [hh])
  have same : { s with host := s.host.tail } = s := by rw [hh, List.tail_nil, ← hh]
  refine ⟨waits.trans (congrArg _ same), ?_⟩
  rcases (cmdReady_iff s).1 ready with hp | hp | hp | ⟨hp, starved⟩
  · exact .inr (.inr (.inl ⟨hp, hc.not_valid (by simp [hp]), hc.err_none (by simp [hp])⟩))
  · exact .inl ⟨hp, hc.valid_iff.2 hp, hc.err_none (by simp [hp])⟩
  · exact .inr (.inl ⟨hp, hc.not_valid (by simp [hp]), hc.err_iff.2 hp⟩)
  · exact .inr (.inr (.inr ⟨hp, starved, hc.not_valid (by simp [hp]), hc.err_none (by simp [hp]),
      (busy_iff s).2 (.inl hp)⟩))

end Sys2Proof.Machine
end

section
/-! The part of the block buffer that belongs to the block at hand (R26), and the two invariants together. -/

namespace Sys2Proof.Machine

/-- How many bytes of the block buffer belong to the block at hand, from the front (R26): those placed so far while the
buffer is filled, all of them while the block is scheduled and compressed, none where no block is at hand. -/
def State.filled (s : State) : Nat :=
  match s.phase with
  | .fill => s.p.toNat % 64
  | .sched | .init | .rounds | .fold => 64
  | .idle | .emit | .done | .error => 0

theorem filled_fill {s : State} (hp : s.phase = .fill) : s.filled = s.p.toNat % 64 := by
  simp only [State.filled, hp]

theorem filled_block {s : State} (hp : s.phase = .sched ∨ s.phase = .init ∨ s.phase = .rounds ∨ s.phase = .fold) :
    s.filled = 64 := by
  rcases hp with hp | hp | hp | hp <;> simp only [State.filled, hp]

theorem filled_none {s : State} (hp : s.phase = .idle ∨ s.phase = .emit ∨ s.phase = .done ∨ s.phase = .error) :
    s.filled = 0 := by
  rcases hp with hp | hp | hp | hp <;> simp only [State.filled, hp]

theorem State.CtrlInv.inside_of_fill {s : State} (h : s.CtrlInv) (hp : s.phase = .fill) :
    s.p.toNat < padP s.size.toNat := (progress_fill hp).1 h.progress

/-- One more byte of the block is in the buffer, the last one included. -/
theorem filled_placeByte {s : State} (hc : s.CtrlInv) (hp : s.phase = .fill) (b : Byte) :
    (s.placeByte b).filled = s.p.toNat % 64 + 1 := by
  have counted := placeByte_p_toNat b (hc.inside_of_fill hp)
  by_cases full : (s.p.toNat + 1) % 64 = 0
  · rw [filled_block (.inl (if_pos full))]; omega
  · rw [filled_fill ((if_neg full).trans hp), counted]; omega

/-- The control registers hold together, and the data registers hold what the components compute. -/
structure State.Inv (s : State) : Prop where
  ctrl : s.CtrlInv
  data : s.DataInv

theorem State.Inv.step {s t : State} (h : s.Inv) (hst : step s = .next t) : t.Inv :=
  ⟨h.ctrl.step hst, h.data.step h.ctrl hst⟩

theorem State.Inv.with_host {s : State} (h : s.Inv) (q : List HostEvent) : { s with host := q }.Inv :=
  ⟨h.ctrl.with_host q, h.data.with_host q⟩

theorem inv_beginMessage (s : State) (n : BitVec 61) : (s.beginMessage n).Inv :=
  ⟨ctrlInv_beginMessage s n, dataInv_of_phase (.inr (.inl rfl))⟩

/-- In FOLD the invariant knows what is added: the hash state becomes that of the block compressed (R157). -/
theorem State.DataInv.foldVars_H {s : State} (h : s.DataInv) (hp : s.phase = .fold) :
    s.foldVars.H = compress s.H (schedule s.B) := by
  obtain ⟨hW, hwv⟩ := (dataInv_fold hp).1 h
  rw [State.foldVars_H, hwv, hW, compress]

end Sys2Proof.Machine
end

section
/-! Two cores at the same place of the same message, and what keeps them so (R209, R262). -/

namespace Sys2Proof.Machine

/-- Two cores at the same place of the same message: all registers are equal but those whose old contents are written over
before they are read (R38), and the block buffer is equal as far as it holds bytes of the block at hand. -/
structure State.SameMessage (s s' : State) : Prop where
  registers : ∃ wv W B D, s' = { s with wv := wv, W := W, B := B, D := D }
  buffer : ∀ j : Fin 64, j.val < s.filled → s.B[j.val] = s'.B[j.val]

namespace State.SameMessage

variable {s s' : State}

theorem phase_eq (h : s.SameMessage s') : s'.phase = s.phase := by
  obtain ⟨⟨_, _, _, _, rfl⟩, -⟩ := h
  rfl

theorem host_eq (h : s.SameMessage s') : s'.host = s.host := by
  obtain ⟨⟨_, _, _, _, rfl⟩, -⟩ := h
  rfl

theorem t_eq (h : s.SameMessage s') : s'.t = s.t := by
  obtain ⟨⟨_, _, _, _, rfl⟩, -⟩ := h
  rfl

theorem p_eq (h : s.SameMessage s') : s'.p = s.p := by
  obtain ⟨⟨_, _, _, _, rfl⟩, -⟩ := h
  rfl

theorem size_eq (h : s.SameMessage s') : s'.size = s.size := by
  obtain ⟨⟨_, _, _, _, rfl⟩, -⟩ := h
  rfl

theorem H_eq (h : s.SameMessage s') : s'.H = s.H := by
  obtain ⟨⟨_, _, _, _, rfl⟩, -⟩ := h
  rfl

theorem cmdReady_eq (h : s.SameMessage s') : s'.cmdReady = s.cmdReady := by
  obtain ⟨⟨_, _, _, _, rfl⟩, -⟩ := h
  rfl

theorem microOp_eq (h : s.SameMessage s') : microOp s' = microOp s := by
  obtain ⟨⟨_, _, _, _, rfl⟩, -⟩ := h
  rfl

theorem B_eq (h : s.SameMessage s') (full : s.filled = 64) : s'.B = s.B :=
  Vector.ext fun j hj => (h.buffer ⟨j, hj⟩ (by rw [full]; exact hj)).symm

theorem with_host (h : s.SameMessage s') (q : List HostEvent) :
    { s with host := q }.SameMessage { s' with host := q } := by
  obtain ⟨⟨wv, W, B, D, rfl⟩, hB⟩ := h
  exact ⟨⟨wv, W, B, D, rfl⟩, hB⟩

/-! Each update keeps two cores at the same place. -/

theorem raise (h : s.SameMessage s') (e : Err) : (s.raise e).SameMessage (s'.raise e) := by
  obtain ⟨⟨wv, W, B, D, rfl⟩, -⟩ := h
  exact ⟨⟨wv, W, B, D, rfl⟩, fun j hj => absurd hj (Nat.not_lt_zero _)⟩

theorem applyReset (h : s.SameMessage s') : s.applyReset.SameMessage s'.applyReset := by
  obtain ⟨⟨wv, W, B, D, rfl⟩, -⟩ := h
  exact ⟨⟨wv, W, B, D, rfl⟩, fun j hj => absurd hj (Nat.not_lt_zero _)⟩

theorem beginMessage (h : s.SameMessage s') (n : BitVec 61) :
    (s.beginMessage n).SameMessage (s'.beginMessage n) := by
  obtain ⟨⟨wv, W, B, D, rfl⟩, -⟩ := h
  exact ⟨⟨wv, W, B, D, rfl⟩, fun j hj => absurd hj (Nat.not_lt_zero _)⟩

theorem placeByte (h : s.SameMessage s') (hc : s.CtrlInv) (hp : s.phase = .fill) (b : Byte) :
    (s.placeByte b).SameMessage (s'.placeByte b) := by
  obtain ⟨⟨wv, W, B, D, rfl⟩, hB⟩ := h
  refine ⟨⟨wv, W, _, D, rfl⟩, fun j hj => ?_⟩
  rw [filled_placeByte hc hp] at hj
  rw [placeByte_B_getElem s b j.isLt, placeByte_B_getElem _ b j.isLt]
  split_ifs with new
  · rfl
  · exact hB j (by rw [filled_fill hp]; omega)

theorem loadWord (h : s.SameMessage s') (hp : s.phase = .sched) (k : BitVec 4) :
    (s.loadWord k).SameMessage (s'.loadWord k) := by
  obtain ⟨⟨wv, W, B, D, rfl⟩, hB⟩ := h
  exact ⟨⟨wv, _, B, D, rfl⟩, fun j _ => hB j (by rw [filled_block (.inl hp)]; exact j.isLt)⟩

theorem expand (h : s.SameMessage s') (hp : s.phase = .sched) (k : BitVec 6) :
    (s.expand k).SameMessage (s'.expand k) := by
  obtain ⟨⟨wv, W, B, D, rfl⟩, hB⟩ := h
  exact ⟨⟨wv, _, B, D, rfl⟩, fun j _ => hB j (by rw [filled_block (.inl hp)]; exact j.isLt)⟩

theorem loadVars (h : s.SameMessage s') (hp : s.phase = .init) : s.loadVars.SameMessage s'.loadVars := by
  obtain ⟨⟨wv, W, B, D, rfl⟩, hB⟩ := h
  exact ⟨⟨_, W, B, D, rfl⟩, fun j _ => hB j (by rw [filled_block (.inr (.inl hp))]; exact j.isLt)⟩

theorem mixRound (h : s.SameMessage s') (hp : s.phase = .rounds) (k : BitVec 6) :
    (s.mixRound k).SameMessage (s'.mixRound k) := by
  obtain ⟨⟨wv, W, B, D, rfl⟩, hB⟩ := h
  exact ⟨⟨_, W, B, D, rfl⟩, fun j _ => hB j (by rw [filled_block (.inr (.inr (.inl hp)))]; exact j.isLt)⟩

/-- FOLD reads the working variables, which are those of the block in the buffer (R157). -/
theorem foldVars (h : s.SameMessage s') (hd : s.DataInv) (hd' : s'.DataInv) (hp : s.phase = .fold) :
    s.foldVars.SameMessage s'.foldVars := by
  have full : s.filled = 64 := filled_block (by simp [hp])
  have sameH : s'.foldVars.H = s.foldVars.H := by
    rw [hd.foldVars_H hp, hd'.foldVars_H (h.phase_eq.trans hp), h.H_eq, h.B_eq full]
  obtain ⟨⟨wv, W, B, D, rfl⟩, hB⟩ := h
  refine ⟨⟨wv, W, B, D, ?_⟩, fun j _ => hB j (by rw [full]; exact j.isLt)⟩
  rw [← sameH]
  rfl

theorem writeOut (h : s.SameMessage s') : s.writeOut.SameMessage s'.writeOut := by
  obtain ⟨⟨wv, W, B, D, rfl⟩, -⟩ := h
  exact ⟨⟨wv, W, B, _, rfl⟩, fun j hj => absurd hj (Nat.not_lt_zero _)⟩

/-! So does each accepted command. -/

theorem acceptStart (h : s.SameMessage s') (n : BitVec 64) :
    (acceptStart n s).SameMessage (acceptStart n s') := by
  unfold Machine.acceptStart
  rw [h.phase_eq]
  split_ifs
  · exact h.raise _
  · exact h.beginMessage _
  · exact h.raise _

theorem acceptData (h : s.SameMessage s') (hc : s.CtrlInv) (b : Byte) :
    (acceptData b s).SameMessage (acceptData b s') := by
  unfold Machine.acceptData
  rw [h.phase_eq]
  split_ifs with _ fill
  · exact h
  · exact h.placeByte hc fill b
  · exact h.raise _

theorem acceptIllegal (h : s.SameMessage s') : (acceptIllegal s).SameMessage (acceptIllegal s') := by
  unfold Machine.acceptIllegal
  rw [h.phase_eq]
  split_ifs
  · exact h
  · exact h.raise _

/-- The port takes the command at both cores or at neither. -/
theorem atPort (h : s.SameMessage s') {a a' t t' : State} (ha : a.SameMessage a') (hx : atPort s a = .next t)
    (hx' : atPort s' a' = .next t') : t.SameMessage t' := by
  rw [atPort_eq_next] at hx hx'
  rw [hx, hx', h.cmdReady_eq]
  split_ifs
  · exact ha
  · exact h

/-- Two micro-operations that answer next states answer their effects. -/
theorem of_whenEnabled {b b' : Bool} {m m' : String} {e e' t t' : State} (he : b = true → e.SameMessage e')
    (hx : whenEnabled b m e = .next t) (hx' : whenEnabled b' m' e' = .next t') : t.SameMessage t' := by
  obtain ⟨on, rfl⟩ := (whenEnabled_eq_next ..).1 hx
  obtain ⟨-, rfl⟩ := (whenEnabled_eq_next ..).1 hx'
  exact he on

/-- An instruction takes two cores at the same place to the same place. -/
theorem exec (h : s.SameMessage s') (hi : s.Inv) (hi' : s'.Inv) {i : Instr} {t t' : State}
    (hx : exec i s = .next t) (hx' : exec i s' = .next t') : t.SameMessage t' := by
  cases i with
  | start n => exact h.atPort (h.acceptStart n) hx hx'
  | data b => exact h.atPort (h.acceptData hi.ctrl b) hx hx'
  | illegalData _ | illegalOp0 _ | illegalOp3 _ | illegalOp4to7 _ _ | illegalOp8toF _ _ =>
    exact h.atPort h.acceptIllegal hx hx'
  | padbyte =>
    refine of_whenEnabled (fun on => ?_) hx hx'
    rw [h.p_eq, h.size_eq]
    exact h.placeByte hi.ctrl (of_decide_eq_true (Bool.and_eq_true_iff.1 on).1) _
  | loadw k => exact of_whenEnabled (fun on => h.loadWord (of_decide_eq_true on).1 k) hx hx'
  | expandLow k | expandHigh k =>
    exact of_whenEnabled (fun on => h.t_eq.symm ▸ h.expand (of_decide_eq_true on).1 s.t) hx hx'
  | initwv => exact of_whenEnabled (fun on => h.loadVars (of_decide_eq_true on)) hx hx'
  | round k => exact of_whenEnabled (fun on => h.mixRound (of_decide_eq_true on).1 k) hx hx'
  | fold => exact of_whenEnabled (fun on => h.foldVars hi.data hi'.data (of_decide_eq_true on)) hx hx'
  | emit => exact of_whenEnabled (fun _ => h.writeOut) hx hx'

/-- A step takes two cores at the same place to the same place: the hosts do the same, so the steps are of one kind. -/
theorem step (h : s.SameMessage s') (hi : s.Inv) (hi' : s'.Inv) {t t' : State} (hst : step s = .next t)
    (hst' : step s' = .next t') : t.SameMessage t' := by
  rcases step_cases s with ⟨rest, hh, h₁⟩ | ⟨i, hm, hreset, h₁⟩ | ⟨cw, hm, hp, h₁⟩ | ⟨hm, hp, hreset, h₁⟩
  · obtain rfl := Host.Outcome.next.inj (hst.symm.trans h₁)
    obtain rfl := Host.Outcome.next.inj (hst'.symm.trans (step_of_reset (h.host_eq.trans hh)))
    exact h.applyReset.with_host rest
  · have h₂ := step_of_microOp (h.microOp_eq.trans hm) (h.host_eq ▸ hreset)
    rw [h.host_eq] at h₂
    exact (h.with_host _).exec (hi.with_host _) (hi'.with_host _) (h₁.symm.trans hst) (h₂.symm.trans hst')
  · have h₂ := step_of_presented (cmdReady_of_microOp (h.microOp_eq.trans hm)) (h.host_eq ▸ hp)
    rw [h.host_eq] at h₂
    exact (h.with_host _).exec (hi.with_host _) (hi'.with_host _) (h₁.symm.trans hst) (h₂.symm.trans hst')
  · have h₂ := step_of_waiting (cmdReady_of_microOp (h.microOp_eq.trans hm)) (h.host_eq ▸ hp) (h.host_eq ▸ hreset)
    rw [h.host_eq] at h₂
    obtain rfl := Host.Outcome.next.inj (hst.symm.trans h₁)
    obtain rfl := Host.Outcome.next.inj (hst'.symm.trans h₂)
    exact h.with_host _

/-- So does a run of any length, and the invariants hold at its end. -/
theorem run (n : Nat) {s s' t t' : State} (h : s.SameMessage s') (hi : s.Inv) (hi' : s'.Inv)
    (hrun : Sys2Proof.core.run n s = .next t) (hrun' : Sys2Proof.core.run n s' = .next t') :
    t.SameMessage t' ∧ t.Inv ∧ t'.Inv := by
  induction n generalizing s s' with
  | zero =>
    obtain rfl := Host.Outcome.next.inj ((run_zero s).symm.trans hrun)
    obtain rfl := Host.Outcome.next.inj ((run_zero s').symm.trans hrun')
    exact ⟨h, hi, hi'⟩
  | succ n ih =>
    obtain ⟨u, hu, hrun⟩ := run_succ_inv n s t hrun
    obtain ⟨u', hu', hrun'⟩ := run_succ_inv n s' t' hrun'
    exact ih (h.step hi hi' hu hu') (hi.step hu) (hi'.step hu') hrun hrun'

/-- Two cores at the same place show the same digest: a valid one is that of the hash state (R181, R239). -/
theorem digest_eq (h : s.SameMessage s') (hi : s.Inv) (hi' : s'.Inv) : s'.digest = s.digest := by
  have valid_eq : s'.digestValid = s.digestValid := by
    obtain ⟨⟨_, _, _, _, rfl⟩, -⟩ := h
    rfl
  cases hv : s.digestValid with
  | false => rw [digest_of_not_valid hv, digest_of_not_valid (valid_eq.trans hv)]
  | true =>
    have hD := (dataInv_done (hi.ctrl.valid_iff.1 hv)).1 hi.data
    have hD' := (dataInv_done (hi'.ctrl.valid_iff.1 (valid_eq.trans hv))).1 hi'.data
    rw [State.digest, State.digest, valid_eq, hD, hD', h.H_eq]

end State.SameMessage

/-- Two cores that accept the same legal START are at the same place, whatever their registers held. -/
theorem sameMessage_beginMessage (s s' : State) (n : BitVec 61) (q : List HostEvent) :
    State.SameMessage { s.beginMessage n with host := q } { s'.beginMessage n with host := q } :=
  ⟨⟨s'.wv, s'.W, s'.B, s'.D, rfl⟩, fun _ hj => absurd hj (Nat.not_lt_zero _)⟩

/-- The step in which a core without a message accepts a held legal START (R192). -/
theorem step_start_of_legal {s : State} {n : BitVec 64} {rest : List HostEvent}
    (hp : s.phase = .idle ∨ s.phase = .done ∨ s.phase = .error) (hn : n.toNat < 2 ^ 61)
    (hh : s.host = .hold (startWord n) :: rest) :
    step s = .next { s.beginMessage (n.extractLsb' 0 61) with host := rest } := by
  have here : ({ s with host := rest } : State).phase = .idle ∨ ({ s with host := rest } : State).phase = .done ∨
    ({ s with host := rest } : State).phase = .error := hp
  rw [stepRunsAcceptedCommand s (startWord n) rest (cmdReady_of_rest hp) (.inl hh), decodeCmd_startWord,
    exec_start_of_legal here hn]
  rfl

/-- Settles O54: the START puts both cores at the same place, every step keeps them there, and the outputs are functions
of what is then equal. -/
theorem outputsAfterStartForgetThePast : Obligations.OutputsAfterStartForgetThePast := by
  intro s s' t t' size rest n hp hp' hn hh hh' hrun hrun'
  rw [run_succ n s _ (step_start_of_legal hp hn hh)] at hrun
  rw [run_succ n s' _ (step_start_of_legal hp' hn hh')] at hrun'
  obtain ⟨same, hi, hi'⟩ := (sameMessage_beginMessage s s' _ rest).run n ((inv_beginMessage s _).with_host rest)
    ((inv_beginMessage s' _).with_host rest) hrun hrun'
  have digests := same.digest_eq hi hi'
  obtain ⟨⟨_, _, _, _, rfl⟩, -⟩ := same
  exact ⟨rfl, rfl, rfl, rfl, digests.symm⟩

end Sys2Proof.Machine
end

section
/-! A working core beside a host that presents the same in every step: what its step is (R190, R191, R197). -/

namespace Sys2Proof.Machine

/-- A host that is the same after a step that does not look at the port, and does not reset the core: it presents nothing, or
holds a word. -/
structure Patient (q : List HostEvent) : Prop where
  waits : hostWaits q = q
  no_reset : ∀ rest, q ≠ .reset :: rest

theorem patient_map_hold {α : Type} (word : α → CmdWord) (l : List α) : Patient (l.map fun a => .hold (word a)) := by
  cases l <;> constructor <;> simp [hostWaits]

/-- Beside a patient host the enabled micro-operation runs from the state as it is (R190). -/
theorem step_of_microOp_patient {s : State} {i : Instr} (hm : microOp s = some i) (hq : Patient s.host) :
    step s = exec i s := by
  rw [step_of_microOp hm hq.no_reset, hq.waits]

/-- How many micro-operations the block at hand still takes: 64 words of the schedule, INITWV, 64 rounds and FOLD in all. -/
def State.blockLeft (s : State) : Nat :=
  match s.phase with
  | .sched => 130 - s.t.toNat
  | .init => 66
  | .rounds => 65 - s.t.toNat
  | .fold => 1
  | .idle | .fill | .emit | .done | .error => 0

/-- A micro-operation of the block at hand before its FOLD: the block, the hash state and the place in the message stay, and
one micro-operation less is left. -/
structure State.BlockStep (s u : State) : Prop where
  before : s.phase = .sched ∨ s.phase = .init ∨ s.phase = .rounds
  after : u.phase = .sched ∨ u.phase = .init ∨ u.phase = .rounds ∨ u.phase = .fold
  left : u.blockLeft + 1 = s.blockLeft
  H_eq : u.H = s.H
  B_eq : u.B = s.B
  size_eq : u.size = s.size
  p_eq : u.p = s.p
  host_eq : u.host = s.host

theorem blockStep_loadWord {s : State} (hp : s.phase = .sched) (low : s.t.toNat < 16) (k : BitVec 4) :
    s.BlockStep (s.loadWord k) := by
  have counted := succ_toNat s.t (by intro h; simp [h] at low)
  have left : (s.loadWord k).blockLeft + 1 = s.blockLeft := by
    simp only [State.blockLeft, State.loadWord_phase, State.loadWord_t, hp, counted]
    omega
  exact ⟨.inl hp, .inl hp, left, rfl, rfl, rfl, rfl, rfl⟩

theorem blockStep_expand {s : State} (hp : s.phase = .sched) : s.BlockStep (s.expand s.t) := by
  by_cases last : s.t = 63#6
  · have left : (s.expand s.t).blockLeft + 1 = s.blockLeft := by simp [State.blockLeft, hp, last]
    exact ⟨.inl hp, .inr (.inl (if_pos last)), left, rfl, rfl, rfl, rfl, rfl⟩
  · have counted := succ_toNat s.t last
    have left : (s.expand s.t).blockLeft + 1 = s.blockLeft := by
      simp only [State.blockLeft, State.expand_phase, State.expand_t, if_neg last, hp, counted]
      omega
    exact ⟨.inl hp, .inl ((if_neg last).trans hp), left, rfl, rfl, rfl, rfl, rfl⟩

theorem blockStep_loadVars {s : State} (hp : s.phase = .init) (ht : s.t = 0#6) : s.BlockStep s.loadVars := by
  have left : s.loadVars.blockLeft + 1 = s.blockLeft := by simp [State.blockLeft, hp, ht]
  exact ⟨.inr (.inl hp), .inr (.inr (.inl rfl)), left, rfl, rfl, rfl, rfl, rfl⟩

theorem blockStep_mixRound {s : State} (hp : s.phase = .rounds) : s.BlockStep (s.mixRound s.t) := by
  by_cases last : s.t = 63#6
  · have left : (s.mixRound s.t).blockLeft + 1 = s.blockLeft := by simp [State.blockLeft, hp, last]
    exact ⟨.inr (.inr hp), .inr (.inr (.inr (if_pos last))), left, rfl, rfl, rfl, rfl, rfl⟩
  · have counted := succ_toNat s.t last
    have left : (s.mixRound s.t).blockLeft + 1 = s.blockLeft := by
      simp only [State.blockLeft, State.mixRound_phase, State.mixRound_t, if_neg last, hp, counted]
      omega
    exact ⟨.inr (.inr hp), .inr (.inr (.inl ((if_neg last).trans hp))), left, rfl, rfl, rfl, rfl, rfl⟩

/-- The enabled micro-operation of SCHED is a step of the block (R132, R133). -/
theorem exec_schedOp {s : State} (hp : s.phase = .sched) : ∃ u, exec (schedOp s.t) s = .next u ∧ s.BlockStep u := by
  rcases schedOp_cases s.t with ⟨k, hop, ht⟩ | ⟨k, hop, ht⟩ | ⟨k, hop, ht⟩ <;> rw [hop]
  · exact ⟨_, exec_loadw_of_sched hp ht, blockStep_loadWord hp (by rw [ht]; exact k.isLt) k⟩
  · exact ⟨_, exec_expandLow_of_sched hp ht, blockStep_expand hp⟩
  · exact ⟨_, exec_expandHigh_of_sched hp ht, blockStep_expand hp⟩

/-- The state `u` is what a working core makes of `s` by itself: it pads the message, goes on with the block at hand, folds
it, or writes the digest. -/
inductive State.Works (s : State) : State → Prop
  | pads (hp : s.phase = .fill) (done : s.size.toNat ≤ s.p.toNat) : s.Works (s.placeByte (padByte s.p.toNat s.size))
  | inBlock {u : State} (h : s.BlockStep u) : s.Works u
  | folds (hp : s.phase = .fold) : s.Works s.foldVars
  | emits (hp : s.phase = .emit) : s.Works s.writeOut

/-- A core that accepts no command works, whatever word the host holds (R190, R191). -/
theorem exists_step_works {s : State} (hc : s.CtrlInv) (hq : Patient s.host) (hr : s.cmdReady = false) :
    ∃ u, step s = .next u ∧ s.Works u := by
  cases hp : s.phase with
  | idle | done | error => simp [State.cmdReady, hp] at hr
  | fill =>
    have done : s.padding = true := by simpa [State.cmdReady, hp] using hr
    have enabled : microOp s = some .padbyte := by simp [microOp, hp, done]
    have done : s.size.toNat ≤ s.p.toNat := of_decide_eq_true done
    exact ⟨_, (step_of_microOp_patient enabled hq).trans (exec_padbyte_of_padding hp done), .pads hp done⟩
  | sched =>
    have enabled : microOp s = some (schedOp s.t) := by simp [microOp, hp]
    obtain ⟨u, hu, block⟩ := exec_schedOp hp
    exact ⟨u, (step_of_microOp_patient enabled hq).trans hu, .inBlock block⟩
  | init =>
    have enabled : microOp s = some .initwv := by simp [microOp, hp]
    have ht : s.t = 0#6 := hc.t_zero (by simp [hp]) (by simp [hp])
    exact ⟨_, (step_of_microOp_patient enabled hq).trans (exec_initwv_of_init hp), .inBlock (blockStep_loadVars hp ht)⟩
  | rounds =>
    have enabled : microOp s = some (.round s.t) := by simp [microOp, hp]
    exact ⟨_, (step_of_microOp_patient enabled hq).trans (exec_round_of_rounds hp), .inBlock (blockStep_mixRound hp)⟩
  | fold =>
    have enabled : microOp s = some .fold := by simp [microOp, hp]
    exact ⟨_, (step_of_microOp_patient enabled hq).trans (exec_fold_of_fold hp), .folds hp⟩
  | emit =>
    have enabled : microOp s = some .emit := by simp [microOp, hp]
    exact ⟨_, (step_of_microOp_patient enabled hq).trans (exec_emit_of_emit hp), .emits hp⟩

theorem State.Works.host_eq {s u : State} (h : s.Works u) : u.host = s.host := by
  cases h with
  | pads | folds => rfl
  | inBlock h => exact h.host_eq
  | emits => exact State.writeOut_host s

end Sys2Proof.Machine
end

section
/-! How many steps a core still takes: to DONE (R203), and to the end of a hold (R202). -/

namespace Sys2Proof.Machine

/-- How many steps the rest of the message takes after the block at hand: one for each byte to come up to `P`, 130 for each
block they fill, and the EMIT (R203). -/
def State.messageLeft (s : State) : Nat :=
  if s.busy then padP s.size.toNat - s.p.toNat + 130 * (padN s.size.toNat - s.p.toNat / 64) + 1 else 0

/-- How many steps a core that is given every byte it waits for takes to DONE (R203). -/
def State.stepsToDone (s : State) : Nat := s.blockLeft + s.messageLeft

/-- How many steps a hold still takes (R202): while bytes of the message are to come it ends with the block at hand, and after
the last of them it lasts to DONE. -/
def State.holdLeft (s : State) : Nat := s.blockLeft + if s.padding then s.messageLeft else 0

theorem messageLeft_of_busy {s : State} (hb : s.busy = true) :
    s.messageLeft = padP s.size.toNat - s.p.toNat + 130 * (padN s.size.toNat - s.p.toNat / 64) + 1 := if_pos hb

theorem messageLeft_of_not_busy {s : State} (hb : s.busy = false) : s.messageLeft = 0 := by
  simp [State.messageLeft, hb]

/-- The rest of the message depends on the place in it alone. -/
theorem messageLeft_congr {s u : State} (hs : s.busy = true) (hu : u.busy = true) (hsize : u.size = s.size)
    (hp : u.p = s.p) : u.messageLeft = s.messageLeft := by
  rw [messageLeft_of_busy hs, messageLeft_of_busy hu, hsize, hp]

theorem padding_congr {s u : State} (hsize : u.size = s.size) (hp : u.p = s.p) : u.padding = s.padding := by
  rw [State.padding, State.padding, hsize, hp]

theorem busy_foldVars (s : State) : s.foldVars.busy = true := by
  by_cases last : s.p.toNat = padP s.size.toNat <;> simp [busy_iff, last]

theorem blockLeft_foldVars (s : State) : s.foldVars.blockLeft = 0 := by
  by_cases last : s.p.toNat = padP s.size.toNat <;> simp [State.blockLeft, last]

/-- A step of the block before FOLD shortens the block and nothing else. -/
theorem State.BlockStep.shortens_block {s u : State} (h : s.BlockStep u) :
    u.blockLeft + 1 = s.blockLeft ∧ u.messageLeft = s.messageLeft ∧ u.padding = s.padding := by
  have busy : s.busy = true := (busy_iff s).2 (by have := h.before; tauto)
  exact ⟨h.left, messageLeft_congr busy (busy_of_block h.after) h.size_eq h.p_eq, padding_congr h.size_eq h.p_eq⟩

/-- So does FOLD. -/
theorem foldVars_shortens_block {s : State} (hp : s.phase = .fold) :
    s.foldVars.blockLeft + 1 = s.blockLeft ∧ s.foldVars.messageLeft = s.messageLeft ∧
      s.foldVars.padding = s.padding := by
  have last : s.blockLeft = 1 := by simp [State.blockLeft, hp]
  exact ⟨by rw [blockLeft_foldVars, last],
    messageLeft_congr ((busy_iff s).2 (by simp [hp])) (busy_foldVars s) rfl rfl, rfl⟩

/-- A byte of the message is one step; if it fills a block, the block is at hand, with all its 130 micro-operations left. -/
theorem stepsToDone_placeByte {s : State} (hc : s.CtrlInv) (hp : s.phase = .fill) (b : Byte) :
    (s.placeByte b).stepsToDone + 1 = s.stepsToDone := by
  have inside := hc.inside_of_fill hp
  have whole := padP_eq_blocks s.size.toNat
  have ht : s.t = 0#6 := hc.t_zero (by simp [hp]) (by simp [hp])
  have counted := placeByte_p_toNat b inside
  have none_left : s.blockLeft = 0 := by simp [State.blockLeft, hp]
  rw [State.stepsToDone, State.stepsToDone, none_left, messageLeft_of_busy ((busy_iff s).2 (.inl hp))]
  by_cases full : (s.p.toNat + 1) % 64 = 0
  · have next : (s.placeByte b).phase = .sched := if_pos full
    have block : (s.placeByte b).blockLeft = 130 := by simp [State.blockLeft, full, ht]
    rw [messageLeft_of_busy ((busy_iff _).2 (.inr (.inl next))), counted, block, State.placeByte_size]
    omega
  · have next : (s.placeByte b).phase = .fill := (if_neg full).trans hp
    have block : (s.placeByte b).blockLeft = 0 := by simp [State.blockLeft, full, hp]
    rw [messageLeft_of_busy ((busy_iff _).2 (.inl next)), counted, block, State.placeByte_size]
    omega

/-- EMIT is the last step. -/
theorem stepsToDone_emit {s : State} (hc : s.CtrlInv) (hp : s.phase = .emit) : s.stepsToDone = 1 := by
  have last := (progress_last (.inl hp)).1 hc.progress
  have whole := padP_eq_blocks s.size.toNat
  have none_left : s.blockLeft = 0 := by simp [State.blockLeft, hp]
  rw [State.stepsToDone, none_left, messageLeft_of_busy ((busy_iff s).2 (by simp [hp]))]
  omega

theorem stepsToDone_done {s : State} (hp : s.phase = .done) : s.stepsToDone = 0 := by
  simp [State.stepsToDone, State.blockLeft, State.messageLeft, State.busy, hp]

/-- Each step of a working core is one step less to DONE. -/
theorem State.Works.stepsToDone {s u : State} (h : s.Works u) (hc : s.CtrlInv) : u.stepsToDone + 1 = s.stepsToDone := by
  cases h with
  | pads hp => exact stepsToDone_placeByte hc hp _
  | emits hp => rw [stepsToDone_emit hc hp, stepsToDone_done (State.writeOut_phase s)]
  | inBlock h =>
    obtain ⟨block, message, -⟩ := h.shortens_block
    rw [State.stepsToDone, State.stepsToDone, message, ← block, Nat.add_right_comm]
  | folds hp =>
    obtain ⟨block, message, -⟩ := foldVars_shortens_block hp
    rw [State.stepsToDone, State.stepsToDone, message, ← block, Nat.add_right_comm]

/-- After the last byte of the message a hold lasts to DONE. -/
theorem holdLeft_of_padding {s : State} (h : s.padding = true) : s.holdLeft = s.stepsToDone := by
  rw [State.holdLeft, State.stepsToDone, if_pos h]

/-- Each step of a working core is one step less of the hold. -/
theorem State.Works.holdLeft {s u : State} (h : s.Works u) (hc : s.CtrlInv) : u.holdLeft + 1 = s.holdLeft := by
  have less := h.stepsToDone hc
  cases h with
  | pads hp done =>
    have counted := placeByte_p_toNat (padByte s.p.toNat s.size) (hc.inside_of_fill hp)
    have padded : (s.placeByte (padByte s.p.toNat s.size)).padding = true := by
      simp only [State.padding, decide_eq_true_eq, counted, State.placeByte_size]
      omega
    rwa [holdLeft_of_padding (decide_eq_true done), holdLeft_of_padding padded]
  | emits hp =>
    have last := (progress_last (.inl hp)).1 hc.progress
    have longer := lt_padP s.size.toNat
    have padded : s.padding = true := decide_eq_true (by omega)
    have still : s.writeOut.padding = true := (padding_congr (State.writeOut_size s) (State.writeOut_p s)).trans padded
    rwa [holdLeft_of_padding padded, holdLeft_of_padding still]
  | inBlock h =>
    obtain ⟨block, message, padding⟩ := h.shortens_block
    rw [State.holdLeft, State.holdLeft, message, padding, ← block, Nat.add_right_comm]
  | folds hp =>
    obtain ⟨block, message, padding⟩ := foldVars_shortens_block hp
    rw [State.holdLeft, State.holdLeft, message, padding, ← block, Nat.add_right_comm]

theorem blockLeft_le (s : State) : s.blockLeft ≤ 130 := by
  cases hp : s.phase <;> simp [State.blockLeft, hp]
  omega

/-- The longest hold begins after the last byte of a message with `size mod 64 = 56`: 8 bytes of padding, a block, 64 bytes of
padding, a block, and EMIT (R202). -/
theorem holdLeft_le {s : State} (hc : s.CtrlInv) : s.holdLeft ≤ 333 := by
  have block := blockLeft_le s
  have whole := padP_eq_blocks s.size.toNat
  have short := padP_le s.size.toNat
  by_cases past : s.size.toNat ≤ s.p.toNat
  case neg =>
    have : s.padding = false := decide_eq_false past
    simp [State.holdLeft, this]
    omega
  rw [holdLeft_of_padding (decide_eq_true past), State.stepsToDone]
  cases busy : s.busy with
  | false => rw [messageLeft_of_not_busy busy]; omega
  | true =>
    rw [messageLeft_of_busy busy]
    rcases (busy_iff s).1 busy with hp | hp | hp | hp | hp | hp
    case inr.inr.inr.inr.inr =>
      have last := (progress_last (.inl hp)).1 hc.progress
      omega
    case inl =>
      have none_left : s.blockLeft = 0 := by simp [State.blockLeft, hp]
      omega
    all_goals
      obtain ⟨aligned, -, -⟩ := (progress_block (by simp [hp])).1 hc.progress
      omega

/-- A core alone comes to accept commands in as many steps as its hold has left, or fewer. -/
theorem exists_run_cmdReady (n : Nat) {s : State} (hc : s.CtrlInv) (hh : s.host = []) (hn : s.holdLeft ≤ n) :
    ∃ (k : Nat) (t : State), k ≤ n ∧ Sys2Proof.core.run k s = .next t ∧ t.cmdReady = true := by
  cases hr : s.cmdReady with
  | true => exact ⟨0, s, Nat.zero_le n, run_zero s, hr⟩
  | false =>
    have alone : Patient s.host := by rw [hh]; exact ⟨rfl, nofun⟩
    obtain ⟨u, hu, works⟩ := exists_step_works hc alone hr
    have less := works.holdLeft hc
    cases n with
    | zero => omega
    | succ n =>
      obtain ⟨k, t, hk, hrun, ready⟩ := exists_run_cmdReady n (hc.step hu) (works.host_eq.trans hh) (by omega)
      exact ⟨k + 1, t, Nat.succ_le_succ hk, (run_succ k s u hu).trans hrun, ready⟩

/-- Settles O47: each step is one less of the hold, and no hold has more than 333 left. -/
theorem holdEndsWithin333Steps : Obligations.HoldEndsWithin333Steps :=
  fun _ hc _ _ hh => exists_run_cmdReady 333 hc hh (holdLeft_le hc)

end Sys2Proof.Machine
end

section
/-! A core in the middle of an invocation: what it has computed of the message's digest (R119, R158, R200). -/

namespace Sys2Proof.Machine

/-- How many blocks of the message are compressed into the hash state (R158): those before the byte counter, without the one
at hand. -/
def State.blocksDone (s : State) : Nat :=
  match s.phase with
  | .sched | .init | .rounds | .fold => s.p.toNat / 64 - 1
  | .idle | .fill | .emit | .done | .error => s.p.toNat / 64

theorem blocksDone_block {s : State} (hp : s.phase = .sched ∨ s.phase = .init ∨ s.phase = .rounds ∨ s.phase = .fold) :
    s.blocksDone = s.p.toNat / 64 - 1 := by
  rcases hp with hp | hp | hp | hp <;> simp only [State.blocksDone, hp]

theorem blocksDone_between {s : State} (hp : s.phase = .fill ∨ s.phase = .emit ∨ s.phase = .done) :
    s.blocksDone = s.p.toNat / 64 := by
  rcases hp with hp | hp | hp <;> simp only [State.blocksDone, hp]

/-- A byte placed compresses nothing, also where it fills the block. -/
theorem blocksDone_placeByte {s : State} (hc : s.CtrlInv) (hp : s.phase = .fill) (b : Byte) :
    (s.placeByte b).blocksDone = s.blocksDone := by
  have counted := placeByte_p_toNat b (hc.inside_of_fill hp)
  rw [blocksDone_between (.inl hp)]
  by_cases full : (s.p.toNat + 1) % 64 = 0
  · rw [blocksDone_block (.inl (if_pos full)), counted]; omega
  · rw [blocksDone_between (.inl ((if_neg full).trans hp)), counted]; omega

/-- FOLD compresses the block at hand (R156). -/
theorem blocksDone_foldVars {s : State} (hc : s.CtrlInv) (hp : s.phase = .fold) :
    s.foldVars.blocksDone = s.blocksDone + 1 := by
  obtain ⟨-, begun, -⟩ := (progress_block (by simp [hp])).1 hc.progress
  have after : s.foldVars.phase = .fill ∨ s.foldVars.phase = .emit ∨ s.foldVars.phase = .done := by
    by_cases last : s.p.toNat = padP s.size.toNat <;> simp [last]
  rw [blocksDone_between after, blocksDone_block (by simp [hp]), State.foldVars_p]
  omega

/-- The host of a message of which the first `n` bytes are accepted: it holds the others, in order. -/
def restOf (M : List Byte) (n : Nat) : List HostEvent := (M.drop n).map fun b => .hold (dataWord b)

/-- In the middle of the invocation for `M`, or at its end: the blocks before the one at hand are in the hash state, the block
buffer holds the bytes of the one at hand that the core has come to, and the host still has those of the message. -/
structure State.Hashing (M : List Byte) (s : State) : Prop where
  inv : s.Inv
  active : s.busy = true ∨ s.phase = .done
  size_eq : s.size.toNat = M.length
  host_eq : s.host = restOf M s.p.toNat
  H_eq : s.H = hashAfter M s.blocksDone
  B_eq : ∀ j : Fin 64, j.val < s.filled → s.B[j.val] = (blockOf M (s.blocksDone + 1))[j.val]

theorem blockOf_getElem (M : List Byte) (i : Nat) {j : Nat} (hj : j < 64) :
    (blockOf M (i + 1))[j] = (padMsg M).getD (64 * i + j) 0#8 := by
  rw [blockOf, Vector.getElem_ofFn, Nat.add_sub_cancel]

/-- The padded message begins with the message (R111). -/
theorem padMsg_getElem?_message {M : List Byte} {j : Nat} (hj : j < M.length) : (padMsg M)[j]? = some M[j] := by
  rw [← List.getElem?_take_of_lt hj, padMsg_take, List.getElem?_eq_getElem hj]

/-- The next byte of the padded message, from wherever it comes, goes to its place in its block (R119). -/
theorem State.Hashing.placeByte {M : List Byte} {s : State} (h : s.Hashing M) (hp : s.phase = .fill) {b : Byte}
    (hb : (padMsg M)[s.p.toNat]? = some b) : { s.placeByte b with host := restOf M (s.p.toNat + 1) }.Hashing M := by
  obtain ⟨hi, -, hsize, -, hH, hB⟩ := h
  have counted := placeByte_p_toNat b (hi.ctrl.inside_of_fill hp)
  have blocks := blocksDone_placeByte hi.ctrl hp b
  have here : s.blocksDone = s.p.toNat / 64 := blocksDone_between (.inl hp)
  have active : (s.placeByte b).busy = true := by
    by_cases full : (s.p.toNat + 1) % 64 = 0 <;> simp [busy_iff, full, hp]
  refine ⟨State.Inv.with_host ⟨hi.ctrl.placeByte hp b, dataInv_placeByte hi.ctrl hp b⟩ _, .inl active, hsize, ?_,
    hH.trans (congrArg _ blocks.symm), fun j hj => ?_⟩
  · exact congrArg (restOf M) counted.symm
  · have hj : j.val < s.p.toNat % 64 + 1 := (filled_placeByte hi.ctrl hp b) ▸ hj
    change (s.placeByte b).B[j.val] = (blockOf M ((s.placeByte b).blocksDone + 1))[j.val]
    rw [blocks, placeByte_B_getElem s b j.isLt]
    split_ifs with new
    · have place : 64 * s.blocksDone + j.val = s.p.toNat := by omega
      rw [blockOf_getElem M _ j.isLt, place, List.getD_eq_getElem?_getD, hb, Option.getD_some]
    · exact hB j (by rw [filled_fill hp]; omega)

/-- A step of the block leaves all that is computed of the digest as it is. -/
theorem State.Hashing.blockStep {M : List Byte} {s u : State} (h : s.Hashing M) (block : s.BlockStep u) (hi : u.Inv) :
    u.Hashing M := by
  obtain ⟨-, -, hsize, hhost, hH, hB⟩ := h
  have before : s.phase = .sched ∨ s.phase = .init ∨ s.phase = .rounds ∨ s.phase = .fold := by
    have := block.before
    tauto
  have blocks : u.blocksDone = s.blocksDone := by
    rw [blocksDone_block block.after, blocksDone_block before, block.p_eq]
  refine ⟨hi, .inl (busy_of_block block.after), block.size_eq ▸ hsize, ?_, ?_, fun j _ => ?_⟩
  · rw [block.host_eq, hhost, block.p_eq]
  · rw [block.H_eq, hH, blocks]
  · simp only [block.B_eq, blocks]
    exact hB j (by rw [filled_block before]; exact j.isLt)

/-- FOLD adds the block at hand to those in the hash state (R158). -/
theorem State.Hashing.foldVars {M : List Byte} {s : State} (h : s.Hashing M) (hp : s.phase = .fold) :
    s.foldVars.Hashing M := by
  obtain ⟨hi, -, hsize, hhost, hH, hB⟩ := h
  have full : s.filled = 64 := filled_block (by simp [hp])
  have blocks := blocksDone_foldVars hi.ctrl hp
  have block : s.B = blockOf M (s.blocksDone + 1) := Vector.ext fun j hj => hB ⟨j, hj⟩ (by rw [full]; exact hj)
  refine ⟨⟨hi.ctrl.foldVars hp, dataInv_foldVars s⟩, .inl (busy_foldVars s), hsize, hhost, ?_, fun j hj => ?_⟩
  · rw [hi.data.foldVars_H hp, blocks, hashAfter, hH, block]
  · have none_filled : s.foldVars.filled = 0 := by
      obtain ⟨aligned, -, -⟩ := (progress_block (by simp [hp])).1 hi.ctrl.progress
      by_cases last : s.p.toNat = padP s.size.toNat
      · exact filled_none (.inr (.inl (if_pos last)))
      · exact (filled_fill (if_neg last)).trans aligned
    exact absurd (none_filled ▸ hj) (Nat.not_lt_zero _)

/-- EMIT reads the hash state and leaves it (R180). -/
theorem State.Hashing.writeOut {M : List Byte} {s : State} (h : s.Hashing M) (hp : s.phase = .emit) :
    s.writeOut.Hashing M := by
  obtain ⟨hi, -, hsize, hhost, hH, -⟩ := h
  have blocks : s.writeOut.blocksDone = s.blocksDone := by
    rw [blocksDone_between (.inr (.inr (State.writeOut_phase s))), blocksDone_between (.inr (.inl hp)), State.writeOut_p]
  refine ⟨⟨hi.ctrl.writeOut hp, dataInv_writeOut s⟩, .inr (State.writeOut_phase s), ?_, ?_, ?_, fun j hj => ?_⟩
  · rw [State.writeOut_size, hsize]
  · rw [State.writeOut_host, hhost, State.writeOut_p]
  · rw [State.writeOut_H, hH, blocks]
  · exact absurd hj (Nat.not_lt_zero _)

/-- The work of the core by itself goes on with the invocation. -/
theorem State.Hashing.works {M : List Byte} {s u : State} (h : s.Hashing M) (works : s.Works u) (hst : step s = .next u) :
    u.Hashing M := by
  cases works with
  | pads hp done =>
    have byte := (padByteIsPaddedMessage M s.size h.size_eq.symm).2.2 s.p.toNat done (h.inv.ctrl.inside_of_fill hp)
    have none_left : restOf M (s.p.toNat + 1) = s.host := by
      have done := h.size_eq ▸ done
      rw [h.host_eq, restOf, restOf, List.drop_eq_nil_of_le done, List.drop_eq_nil_of_le (Nat.le_succ_of_le done)]
    have next := h.placeByte hp byte
    rw [none_left] at next
    exact next
  | inBlock block => exact h.blockStep block (h.inv.step hst)
  | folds hp => exact h.foldVars hp
  | emits hp => exact h.writeOut hp

/-- In a starved FILL the host holds the next byte of the message, and the core accepts it (R194, R200). -/
theorem State.Hashing.step_data {M : List Byte} {s : State} (h : s.Hashing M) (hp : s.phase = .fill)
    (starved : s.p.toNat < s.size.toNat) :
    ∃ u, step s = .next u ∧ u.Hashing M ∧ u.stepsToDone + 1 = s.stepsToDone := by
  have inside : s.p.toNat < M.length := h.size_eq ▸ starved
  have first : s.host = .hold (dataWord M[s.p.toNat]) :: restOf M (s.p.toNat + 1) := by
    rw [h.host_eq, restOf, List.drop_eq_getElem_cons inside, List.map_cons, restOf]
  have ready : s.cmdReady = true := (cmdReady_iff s).2 (by simp [hp, starved])
  refine ⟨_, ?_, h.placeByte hp (padMsg_getElem?_message inside), stepsToDone_placeByte h.inv.ctrl hp M[s.p.toNat]⟩
  have here : ({ s with host := restOf M (s.p.toNat + 1) } : State).phase = .fill := hp
  rw [stepRunsAcceptedCommand s _ _ ready (.inl first), decodeCmd_dataWord, exec_data_of_starved here starved]
  rfl

/-- Each step of an invocation goes on with it, and is one step less to DONE (R203). -/
theorem State.Hashing.step {M : List Byte} {s : State} (h : s.Hashing M) (hb : s.busy = true) :
    ∃ u, step s = .next u ∧ u.Hashing M ∧ u.stepsToDone + 1 = s.stepsToDone := by
  cases hr : s.cmdReady with
  | true =>
    rcases (cmdReady_iff s).1 hr with hp | hp | hp | ⟨hp, starved⟩
    · simp [State.busy, hp] at hb
    · simp [State.busy, hp] at hb
    · simp [State.busy, hp] at hb
    · exact h.step_data hp starved
  | false =>
    have patient : Patient s.host := h.host_eq ▸ patient_map_hold dataWord _
    obtain ⟨u, hu, works⟩ := exists_step_works h.inv.ctrl patient hr
    exact ⟨u, hu, h.works works hu, works.stepsToDone h.inv.ctrl⟩

/-- An invocation comes to DONE in the steps it has left. -/
theorem State.Hashing.run {M : List Byte} (n : Nat) {s : State} (h : s.Hashing M) (hn : s.stepsToDone = n) :
    ∃ t : State, Sys2Proof.core.run n s = .next t ∧ t.Hashing M ∧ t.phase = .done := by
  rcases h.active with hb | hp
  · obtain ⟨u, hu, next, less⟩ := h.step hb
    cases n with
    | zero => omega
    | succ n =>
      obtain ⟨t, hrun, hashed, done⟩ := next.run n (by omega)
      exact ⟨t, (run_succ n s u hu).trans hrun, hashed, done⟩
  · obtain rfl : n = 0 := hn.symm.trans (stepsToDone_done hp)
    exact ⟨s, run_zero s, h, hp⟩

/-- In DONE the digest of the message is in `D`, and the host has no byte left (R200). -/
theorem State.Hashing.of_done {M : List Byte} {s : State} (h : s.Hashing M) (hp : s.phase = .done) :
    s.D = sha256 M ∧ s.host = [] := by
  have last : s.p.toNat = padP M.length := h.size_eq ▸ (progress_last (.inr hp)).1 h.inv.ctrl.progress
  have blocks : s.blocksDone = padN M.length := by rw [blocksDone_between (.inr (.inr hp)), last, padN]
  have longer := lt_padP M.length
  refine ⟨?_, ?_⟩
  · rw [(dataInv_done hp).1 h.inv.data, h.H_eq, blocks, sha256]
  · rw [h.host_eq, restOf, List.drop_eq_nil_of_le (by omega), List.map_nil]

/-- START begins the invocation, with no byte placed and no block compressed (R192). -/
theorem hashing_beginMessage {M : List Byte} (s : State) {n : BitVec 61} (hn : n.toNat = M.length) :
    { s.beginMessage n with host := restOf M 0 }.Hashing M :=
  have none_done : State.blocksDone { s.beginMessage n with host := restOf M 0 } = 0 := by
    rw [blocksDone_between (.inl rfl)]
    simp
  ⟨(inv_beginMessage s n).with_host _, .inl rfl, hn, rfl, (congrArg (hashAfter M) none_done).symm,
    fun _ hj => absurd hj (Nat.not_lt_zero _)⟩

/-- The whole message is one step for each byte of `N` blocks, their 130 micro-operations, and EMIT (R203). -/
theorem stepsToDone_beginMessage (s : State) (n : BitVec 61) (q : List HostEvent) :
    State.stepsToDone { s.beginMessage n with host := q } = 194 * padN n.toNat + 1 := by
  have whole := padP_eq_blocks n.toNat
  have message : State.messageLeft { s.beginMessage n with host := q } =
    padP n.toNat - 0 + 130 * (padN n.toNat - 0 / 64) + 1 := rfl
  have block : State.blockLeft { s.beginMessage n with host := q } = 0 := rfl
  rw [State.stepsToDone, message, block]
  omega

/-- The words of HASH, each held: START and then the bytes of the message (R90). -/
theorem hostOf_hash (M : List Byte) :
    hostOf [.hash M] = .hold (startWord (BitVec.ofNat 64 M.length)) :: restOf M 0 := by
  simp [hostOf, AsmLine.words, restOf]

/-- Settles O46: START begins the invocation, each further step goes on with it, and it ends with the digest. -/
theorem invocationComputesDigest : Obligations.InvocationComputesDigest := by
  intro s M hp short hh
  have announced : (BitVec.ofNat 64 M.length).toNat = M.length := by
    rw [BitVec.toNat_ofNat, Nat.mod_eq_of_lt (by omega)]
  have legal : (BitVec.ofNat 64 M.length).toNat < 2 ^ 61 := announced.symm ▸ short
  have size := (toNat_extractLsb'_of_legal legal).trans announced
  have steps := stepsToDone_beginMessage s ((BitVec.ofNat 64 M.length).extractLsb' 0 61) (restOf M 0)
  rw [size] at steps
  obtain ⟨t, hrun, hashed, done⟩ := (hashing_beginMessage s size).run _ steps
  obtain ⟨digest, host⟩ := hashed.of_done done
  have valid := hashed.inv.ctrl.valid_iff.2 done
  refine ⟨t, ?_, done, digest, ?_, hashed.inv.ctrl.err_none (by simp [done]), host⟩
  · exact (run_succ _ s _ (step_start_of_legal hp legal (hh.trans (hostOf_hash M)))).trans hrun
  · rw [State.digest, if_pos valid, digest]

end Sys2Proof.Machine
end

section
/-! A command that is too large or out of protocol (R193, R195, R231, R233), and a core that is presented nothing (R244). -/

namespace Sys2Proof.Machine

/-! What an accepted command does outside its own protocol. -/

theorem acceptStart_of_fill {s : State} (hp : s.phase = .fill) (n : BitVec 64) : acceptStart n s = s.raise .badCmd := by
  rw [acceptStart, if_pos hp]

theorem acceptStart_of_tooLarge {s : State} {n : BitVec 64} (hp : s.phase ≠ .fill) (hn : 2 ^ 61 ≤ n.toNat) :
    acceptStart n s = s.raise .inputTooLarge := by
  rw [acceptStart, if_neg hp, if_neg (not_lt.2 hn)]

theorem acceptData_of_error {s : State} (hp : s.phase = .error) (b : Byte) : acceptData b s = s := by
  rw [acceptData, if_pos hp]

theorem acceptData_of_no_message {s : State} (he : s.phase ≠ .error) (hf : s.phase ≠ .fill) (b : Byte) :
    acceptData b s = s.raise .badCmd := by
  rw [acceptData, if_neg he, if_neg hf]

theorem acceptIllegal_of_error {s : State} (hp : s.phase = .error) : acceptIllegal s = s := by
  rw [acceptIllegal, if_pos hp]

theorem acceptIllegal_of_not_error {s : State} (hp : s.phase ≠ .error) : acceptIllegal s = s.raise .badCmd := by
  rw [acceptIllegal, if_neg hp]

/-! A port with `cmd_ready = 1` lets the effect through. -/

theorem exec_start_of_cmdReady {s : State} (hr : s.cmdReady = true) (n : BitVec 64) :
    exec (.start n) s = .next (acceptStart n s) := by
  rw [exec, execStart, atPort, if_pos hr]

theorem exec_data_of_cmdReady {s : State} (hr : s.cmdReady = true) (b : Byte) :
    exec (.data b) s = .next (acceptData b s) := by
  rw [exec, execData, atPort, if_pos hr]

theorem exec_illegal_of_cmdReady {s : State} {i : Instr} (hr : s.cmdReady = true) (hi : i.isIllegal = true) :
    exec i s = .next (acceptIllegal s) := by
  rw [exec_isIllegal i s hi, atPort, if_pos hr]

/-- Settles O14: the check of the size is on all 64 bits, and raising an error is the whole effect. -/
theorem startTooLargeIsRejected : Obligations.StartTooLargeIsRejected := by
  intro s n hp hn
  have not_fill : s.phase ≠ .fill := by rcases hp with hp | hp | hp <;> simp [hp]
  rw [exec_start_of_cmdReady (cmdReady_of_rest hp), acceptStart_of_tooLarge not_fill hn, State.raise]

/-- Settles O16: the three classes of command, each where it is accepted out of protocol. -/
theorem outOfProtocolCommandIsBadCmd : Obligations.OutOfProtocolCommandIsBadCmd := by
  rintro s i (⟨illegal, hp⟩ | ⟨⟨b, rfl⟩, hp⟩ | ⟨⟨n, rfl⟩, hp, starved⟩)
  · have ready : s.cmdReady = true := (cmdReady_iff s).2 (by tauto)
    have not_error : s.phase ≠ .error := by rcases hp with hp | hp | ⟨hp, -⟩ <;> simp [hp]
    rw [exec_illegal_of_cmdReady ready illegal, acceptIllegal_of_not_error not_error, State.raise]
  · have ready : s.cmdReady = true := (cmdReady_iff s).2 (by tauto)
    have not_error : s.phase ≠ .error := by rcases hp with hp | hp <;> simp [hp]
    have not_fill : s.phase ≠ .fill := by rcases hp with hp | hp <;> simp [hp]
    rw [exec_data_of_cmdReady ready, acceptData_of_no_message not_error not_fill, State.raise]
  · have ready : s.cmdReady = true := (cmdReady_iff s).2 (by tauto)
    rw [exec_start_of_cmdReady ready, acceptStart_of_fill hp, State.raise]

/-- Settles O9: an absent host and a pause present nothing, so the core waits. -/
theorem waitingCoreChangesNothing : Obligations.WaitingCoreChangesNothing := by
  refine fun s hr => ⟨fun hh => ?_, fun rest hh => ?_⟩
  · have waits := step_of_waiting hr (by rw [hh]; rfl) (by simp [hh])
    rwa [hh, List.tail_nil, ← hh] at waits
  · have waits := step_of_waiting hr (by rw [hh]; rfl) (by simp [hh])
    rwa [hh, List.tail_cons] at waits

end Sys2Proof.Machine
end

section
/-! Error entry (R235): which steps end in ERROR, and what they write. -/

namespace Sys2Proof.Machine

/-- The reset event ends in IDLE, so a step that ends elsewhere is none (R260). -/
theorem not_reset_of_step {s t : State} (hst : step s = .next t) (hp : t.phase ≠ .idle) :
    ∀ rest, s.host ≠ .reset :: rest := by
  intro rest hh
  obtain rfl := Host.Outcome.next.inj (hst.symm.trans (step_of_reset hh))
  exact hp rfl

/-- No micro-operation raises an error (R230). -/
theorem phase_ne_error_of_microOp {i : Instr} {s t : State} (hi : i.isCommand = false) (hp : s.phase ≠ .error)
    (h : exec i s = .next t) : t.phase ≠ .error := by
  cases exec_effect h with
  | kept command | raised command _ => cases hi.symm.trans command
  | begun _ | stored _ => cases hi
  | padded | expandedLow _ | expandedHigh _ | mixed _ | folded => simp [ite_eq_iff, hp]
  | loaded _ | varsLoaded | emitted => simp [hp]

/-- A step that ends in ERROR is one of a core that accepts commands (R235). -/
theorem cmdReady_of_step_to_error {s t : State} (hst : step s = .next t) (hp : t.phase = .error) :
    s.cmdReady = true := by
  by_contra busy
  obtain ⟨i, hm⟩ := microOp_of_not_cmdReady (Bool.eq_false_iff.2 busy)
  have runs := step_of_microOp hm (not_reset_of_step hst (by simp [hp]))
  have not_error : ({ s with host := hostWaits s.host } : State).phase ≠ .error :=
    fun he => busy (cmdReady_of_rest (.inr (.inr he)))
  exact phase_ne_error_of_microOp (isCommand_of_microOp hm) not_error (runs.symm.trans hst) hp

/-- An accepted command that ends in ERROR raises one of two errors, in ERROR only as a START that is too large; or ERROR
discards it, which is no START (R193, R195, R196). -/
theorem accepted_to_error {i : Instr} {s t : State} (hi : i.isCommand = true) (hr : s.cmdReady = true)
    (h : exec i s = .next t) (hp : t.phase = .error) :
    (∃ e, t = s.raise e ∧ (e = .inputTooLarge ∨ e = .badCmd) ∧
      (s.phase = .error → ∃ n : BitVec 64, i = .start n ∧ 2 ^ 61 ≤ n.toNat ∧ e = .inputTooLarge)) ∨
    s.phase = .error ∧ (∀ n, i ≠ .start n) ∧ t = s := by
  rcases isCommand_cases i hi with ⟨n, rfl⟩ | ⟨b, rfl⟩ | illegal
  · obtain rfl := Host.Outcome.next.inj (h.symm.trans (exec_start_of_cmdReady hr n))
    by_cases fill : s.phase = .fill
    · exact .inl ⟨.badCmd, acceptStart_of_fill fill n, .inr rfl, fun he => by simp [fill] at he⟩
    rcases lt_or_ge n.toNat (2 ^ 61) with legal | large
    · simp [acceptStart_of_legal fill legal] at hp
    · exact .inl ⟨.inputTooLarge, acceptStart_of_tooLarge fill large, .inl rfl, fun _ => ⟨n, rfl, large, rfl⟩⟩
  · obtain rfl := Host.Outcome.next.inj (h.symm.trans (exec_data_of_cmdReady hr b))
    by_cases he : s.phase = .error
    · exact .inr ⟨he, nofun, acceptData_of_error he b⟩
    by_cases fill : s.phase = .fill
    · rw [acceptData_of_fill fill, State.placeByte_phase] at hp
      split_ifs at hp
      exact absurd hp he
    · exact .inl ⟨.badCmd, acceptData_of_no_message he fill b, .inr rfl, fun h => absurd h he⟩
  · obtain rfl := Host.Outcome.next.inj (h.symm.trans (exec_illegal_of_cmdReady hr illegal))
    by_cases he : s.phase = .error
    · refine .inr ⟨he, ?_, acceptIllegal_of_error he⟩
      rintro n rfl
      cases illegal
    · exact .inl ⟨.badCmd, acceptIllegal_of_not_error he, .inr rfl, fun h => absurd h he⟩

/-- Settles O49: the core accepts commands, so it accepts the presented one or waits where it is. -/
theorem errorEntryWritesNothingElse : Obligations.ErrorEntryWritesNothingElse := by
  intro s t hst hp
  have ready := cmdReady_of_step_to_error hst hp
  cases shown : presented s.host with
  | none =>
    have waits := step_of_waiting ready shown (not_reset_of_step hst (by simp [hp]))
    obtain rfl := Host.Outcome.next.inj (hst.symm.trans waits)
    exact .inr ⟨hp, nofun, rfl⟩
  | some cw =>
    have accepts := (step_of_presented ready shown).symm.trans hst
    have ready' : ({ s with host := s.host.tail } : State).cmdReady = true := ready
    rcases accepted_to_error (decodeCmd_isCommand cw) ready' accepts hp with ⟨e, rfl, code, large⟩ | ⟨he, not_start, rfl⟩
    · exact .inl ⟨⟨cw, rfl, large⟩, ready, code, rfl⟩
    · refine .inr ⟨he, ?_, rfl⟩
      rintro _ n ⟨⟩
      exact not_start n

end Sys2Proof.Machine
end

section
/-! No partial results (R239). -/

namespace Sys2Proof.Machine

/-- In DONE the port shows the digest of the hash state (R32, R181). -/
theorem State.Inv.digest_of_done {s : State} (h : s.Inv) (hp : s.phase = .done) :
    s.digest = some (digestWord (digestOf s.H)) := by
  rw [State.digest, if_pos (h.ctrl.valid_iff.2 hp), (dataInv_done hp).1 h.data]

/-- The phase graph has two edges into DONE: EMIT's, and that of waiting (R199). -/
theorem phase_of_step_to_done {s t : State} (hst : step s = .next t) (hp : t.phase = .done) :
    s.phase = .done ∨ s.phase = .emit := by
  have edge := stepFollowsPhaseGraph s t hst (not_reset_of_step hst (by simp [hp]))
  simpa [hp] using edge

/-- Settles O50: `digest_valid` is 1 exactly in DONE, which the step enters only from EMIT, with the whole message folded. -/
theorem digestBecomesValidOnlyByEmit : Obligations.DigestBecomesValidOnlyByEmit := by
  intro s t hc hd hst valid
  have next : t.Inv := State.Inv.step ⟨hc, hd⟩ hst
  have done : t.phase = .done := next.ctrl.valid_iff.1 valid
  refine ⟨next.digest_of_done done, ?_⟩
  rcases phase_of_step_to_done hst done with hp | hp
  · exact .inl (hc.valid_iff.2 hp)
  · exact .inr ⟨hp, (progress_last (.inl hp)).1 hc.progress⟩

end Sys2Proof.Machine
end

section
/-! The reset state and the reset event (R260 to R262). -/

namespace Sys2Proof.Machine

/-- Settles O37: the stated values, and the outputs that are functions of them. -/
theorem resetState : Obligations.ResetState :=
  ⟨rfl, rfl, rfl, rfl, rfl, rfl, rfl, digest_of_not_valid rfl⟩

/-- Settles O38: a step beside a host that resets the core is the reset event, whatever else is enabled. -/
theorem resetEventWritesControlOnly : Obligations.ResetEventWritesControlOnly := by
  intro s rest hh
  rw [step_of_reset hh, State.applyReset]

/-- The reset state is one that the reset event leaves as it is. -/
theorem applyReset_reset : State.reset.applyReset = State.reset := rfl

/-- Settles O39: what the reset event leaves has the invariant. -/
theorem ctrlInvAtReset : Obligations.CtrlInvAtReset := by
  unfold Obligations.CtrlInvAtReset
  rw [← applyReset_reset]
  exact ctrlInv_applyReset State.reset

end Sys2Proof.Machine
end

section
/-! Recovery of a starved core (R263). -/

namespace Sys2Proof.Machine

/-- A starved FILL takes a START of any size as out of protocol (R195). -/
theorem step_start_of_starved {s : State} {n : BitVec 64} {rest : List HostEvent} (hp : s.phase = .fill)
    (starved : s.p.toNat < s.size.toNat) (hh : s.host = .hold (startWord n) :: rest) :
    step s = .next { s.raise .badCmd with host := rest } := by
  have ready : s.cmdReady = true := (cmdReady_iff s).2 (by simp [hp, starved])
  rw [stepRunsAcceptedCommand s (startWord n) rest ready (.inl hh), decodeCmd_startWord,
    exec_start_of_cmdReady (s := { s with host := rest }) ready, acceptStart_host, acceptStart_of_fill hp]

/-- Settles O19: the first START leads to ERROR, where the second begins its message. -/
theorem starvedCoreRecoversByTwoStarts : Obligations.StarvedCoreRecoversByTwoStarts := by
  intro s a b rest hp starved legal hh
  refine ⟨_, step_start_of_starved hp starved hh, rfl, rfl, ?_⟩
  rw [step_start_of_legal (.inr (.inr rfl)) legal rfl]
  rfl

end Sys2Proof.Machine
end

section
/-! Two hosts that act the same but for the bytes of DATA, and what they present and do next (R191, R269). -/

namespace Sys2Proof.Machine

/-- Both hosts reset the core or neither does. -/
theorem reset_sameButByte {q q' : List HostEvent} (h : List.Forall₂ HostEvent.SameButByte q q') :
    (∃ rest rest', q = .reset :: rest ∧ q' = .reset :: rest' ∧ List.Forall₂ HostEvent.SameButByte rest rest') ∨
    (∀ rest, q ≠ .reset :: rest) ∧ ∀ rest, q' ≠ .reset :: rest := by
  cases h with
  | nil => exact .inr ⟨nofun, nofun⟩
  | @cons e e' r r' he hr =>
    obtain rfl | ⟨x, y, ⟨rfl, rfl⟩ | ⟨rfl, rfl⟩⟩ := he
    · by_cases reset : e = .reset
      · exact .inl ⟨r, r', by rw [reset], by rw [reset], hr⟩
      · exact .inr ⟨by simp [reset], by simp [reset]⟩
    · exact .inr ⟨nofun, nofun⟩
    · exact .inr ⟨nofun, nofun⟩

theorem tail_sameButByte {q q' : List HostEvent} (h : List.Forall₂ HostEvent.SameButByte q q') :
    List.Forall₂ HostEvent.SameButByte q.tail q'.tail := by
  simpa only [List.drop_one] using List.forall₂_drop 1 h

/-- The words of two messages of the same length differ in the bytes of DATA alone (R90). -/
theorem restOf_sameButByte {M M' : List Byte} (h : M.length = M'.length) :
    List.Forall₂ HostEvent.SameButByte (restOf M 0) (restOf M' 0) := by
  simp only [restOf, List.drop_zero, List.forall₂_map_left_iff, List.forall₂_map_right_iff]
  exact List.forall₂_iff_zip.2 ⟨h, fun {x y} _ => .inr ⟨x, y, .inl ⟨rfl, rfl⟩⟩⟩

end Sys2Proof.Machine
end

section
/-! Cores that agree in their control, and what keeps them so (R269). -/

namespace Sys2Proof.Machine

/-- Two cores that begin messages of one size agree in their control, whatever they did before (R192). -/
theorem sameControl_beginMessage (s s' : State) (n : BitVec 61) {q q' : List HostEvent}
    (hq : List.Forall₂ HostEvent.SameButByte q q') :
    State.SameControl { s.beginMessage n with host := q } { s'.beginMessage n with host := q' } :=
  ⟨rfl, rfl, rfl, rfl, rfl, rfl, hq⟩

namespace State.SameControl

variable {s s' : State}

/-- Cores that agree in their control differ in the data registers and in the bytes their hosts present. -/
theorem only_data (h : s.SameControl s') :
    ∃ H wv W B D q, List.Forall₂ HostEvent.SameButByte s.host q ∧
      s' = { s with H := H, wv := wv, W := W, B := B, D := D, host := q } := by
  refine ⟨s'.H, s'.wv, s'.W, s'.B, s'.D, s'.host, h.host, ?_⟩
  rw [h.size_eq, h.p_eq, h.t_eq, h.phase_eq, h.err_eq, h.valid_eq]

theorem microOp_eq (h : s.SameControl s') : microOp s = microOp s' := by
  obtain ⟨H, wv, W, B, D, q, -, rfl⟩ := h.only_data
  rfl

theorem with_host (h : s.SameControl s') {q q' : List HostEvent} (hq : List.Forall₂ HostEvent.SameButByte q q') :
    { s with host := q }.SameControl { s' with host := q' } := by
  obtain ⟨H, wv, W, B, D, _, -, rfl⟩ := h.only_data
  exact ⟨rfl, rfl, rfl, rfl, rfl, rfl, hq⟩

/-! Each update keeps the agreement; the byte that is placed is data. -/

theorem raise (h : s.SameControl s') (e : Err) : (s.raise e).SameControl (s'.raise e) := by
  obtain ⟨H, wv, W, B, D, q, hq, rfl⟩ := h.only_data
  exact ⟨rfl, rfl, rfl, rfl, rfl, rfl, hq⟩

theorem applyReset (h : s.SameControl s') : s.applyReset.SameControl s'.applyReset := by
  obtain ⟨H, wv, W, B, D, q, hq, rfl⟩ := h.only_data
  exact ⟨rfl, rfl, rfl, rfl, rfl, rfl, hq⟩

theorem placeByte (h : s.SameControl s') (b b' : Byte) : (s.placeByte b).SameControl (s'.placeByte b') := by
  obtain ⟨H, wv, W, B, D, q, hq, rfl⟩ := h.only_data
  exact ⟨rfl, rfl, rfl, rfl, rfl, rfl, hq⟩

theorem writeOut (h : s.SameControl s') : s.writeOut.SameControl s'.writeOut := by
  constructor <;> simp [h.size_eq, h.p_eq, h.t_eq, h.err_eq, h.host]

/-! So does each accepted command. -/

theorem acceptStart (h : s.SameControl s') (n : BitVec 64) : (acceptStart n s).SameControl (acceptStart n s') := by
  unfold Machine.acceptStart
  rw [h.phase_eq]
  split_ifs
  · exact h.raise _
  · exact sameControl_beginMessage s s' _ h.host
  · exact h.raise _

theorem acceptData (h : s.SameControl s') (b b' : Byte) : (acceptData b s).SameControl (acceptData b' s') := by
  unfold Machine.acceptData
  rw [h.phase_eq]
  split_ifs
  · exact h
  · exact h.placeByte b b'
  · exact h.raise _

theorem acceptIllegal (h : s.SameControl s') : (acceptIllegal s).SameControl (acceptIllegal s') := by
  unfold Machine.acceptIllegal
  rw [h.phase_eq]
  split_ifs
  · exact h
  · exact h.raise _

/-- The port takes a command at both cores or at neither. -/
theorem atPort (h : s.SameControl s') {a a' t t' : State} (ha : a.SameControl a') (hx : atPort s a = .next t)
    (hx' : atPort s' a' = .next t') : t.SameControl t' := by
  rw [atPort_eq_next] at hx hx'
  rw [hx, hx', h.cmdReady_eq]
  split_ifs
  · exact ha
  · exact h

/-- Two micro-operations that answer next states answer their effects. -/
theorem of_whenEnabled {b b' : Bool} {m m' : String} {e e' t t' : State} (hx : whenEnabled b m e = .next t)
    (hx' : whenEnabled b' m' e' = .next t') (he : e.SameControl e') : t.SameControl t' := by
  obtain ⟨-, rfl⟩ := (whenEnabled_eq_next ..).1 hx
  obtain ⟨-, rfl⟩ := (whenEnabled_eq_next ..).1 hx'
  exact he

/-- An instruction keeps the agreement: no effect computes a control register from data. -/
theorem exec (h : s.SameControl s') {i : Instr} {t t' : State} (hx : exec i s = .next t)
    (hx' : exec i s' = .next t') : t.SameControl t' := by
  cases i with
  | start n => exact h.atPort (h.acceptStart n) hx hx'
  | data b => exact h.atPort (h.acceptData b b) hx hx'
  | illegalData _ | illegalOp0 _ | illegalOp3 _ | illegalOp4to7 _ _ | illegalOp8toF _ _ =>
    exact h.atPort h.acceptIllegal hx hx'
  | padbyte => exact of_whenEnabled hx hx' (h.placeByte _ _)
  | emit => exact of_whenEnabled hx hx' h.writeOut
  | loadw _ | expandLow _ | expandHigh _ | initwv | round _ | fold =>
    obtain ⟨H, wv, W, B, D, q, hq, rfl⟩ := h.only_data
    exact of_whenEnabled hx hx' ⟨rfl, rfl, rfl, rfl, rfl, rfl, hq⟩

/-- A step keeps the agreement: the steps of the two cores are of one kind, and the hosts stay alike. -/
theorem step (h : s.SameControl s') {t t' : State} (hst : step s = .next t) (hst' : step s' = .next t') :
    t.SameControl t' := by
  rcases reset_sameButByte h.host with ⟨rest, rest', hh, hh', hr⟩ | ⟨hreset, hreset'⟩
  · obtain rfl := Host.Outcome.next.inj (hst.symm.trans (step_of_reset hh))
    obtain rfl := Host.Outcome.next.inj (hst'.symm.trans (step_of_reset hh'))
    exact h.applyReset.with_host hr
  cases hm : microOp s with
  | some i =>
    have runs := step_of_microOp hm hreset
    have runs' := step_of_microOp (h.microOp_eq.symm.trans hm) hreset'
    exact (h.with_host (hostWaits_sameButByte h.host)).exec (runs.symm.trans hst) (runs'.symm.trans hst')
  | none =>
    have ready := cmdReady_of_microOp hm
    have ready' := h.cmdReady_eq.symm.trans ready
    have next := h.with_host (tail_sameButByte h.host)
    rcases presented_sameButByte h.host with same | ⟨x, y, hx, hy⟩
    · cases shown : presented s.host with
      | none =>
        have waits := step_of_waiting ready shown hreset
        have waits' := step_of_waiting ready' (same.symm.trans shown) hreset'
        obtain rfl := Host.Outcome.next.inj (hst.symm.trans waits)
        obtain rfl := Host.Outcome.next.inj (hst'.symm.trans waits')
        exact next
      | some cw =>
        have accepts := step_of_presented ready shown
        have accepts' := step_of_presented ready' (same.symm.trans shown)
        exact next.exec (accepts.symm.trans hst) (accepts'.symm.trans hst')
    · have accepts := step_of_presented ready hx
      have accepts' := step_of_presented ready' hy
      rw [decodeCmd_dataWord] at accepts accepts'
      exact next.atPort (next.acceptData x y) (accepts.symm.trans hst) (accepts'.symm.trans hst')

/-- So does a run of any length. -/
theorem run (n : Nat) {s s' t t' : State} (h : s.SameControl s') (hrun : Sys2Proof.core.run n s = .next t)
    (hrun' : Sys2Proof.core.run n s' = .next t') : t.SameControl t' := by
  induction n generalizing s s' with
  | zero =>
    obtain rfl := Host.Outcome.next.inj ((run_zero s).symm.trans hrun)
    obtain rfl := Host.Outcome.next.inj ((run_zero s').symm.trans hrun')
    exact h
  | succ n ih =>
    obtain ⟨u, hu, hrun⟩ := run_succ_inv n s t hrun
    obtain ⟨u', hu', hrun'⟩ := run_succ_inv n s' t' hrun'
    exact ih (h.step hu hu') hrun hrun'

end State.SameControl

/-- Settles O53: the sequencer looks at control registers alone, and a step keeps them in agreement. -/
theorem controlDoesNotDependOnData : Obligations.ControlDoesNotDependOnData :=
  fun _ _ _ _ h hst hst' => ⟨h.microOp_eq, h.step hst hst'⟩

/-- The step in which a core without a message takes the START of a HASH, whose bytes are left (R90, R192). -/
theorem step_start_of_hash {s : State} {M : List Byte} (hp : s.phase = .idle ∨ s.phase = .done ∨ s.phase = .error)
    (short : M.length < 2 ^ 61) (hh : s.host = hostOf [.hash M]) :
    step s = .next { s.beginMessage ((BitVec.ofNat 64 M.length).extractLsb' 0 61) with host := restOf M 0 } := by
  refine step_start_of_legal hp ?_ (hh.trans (hostOf_hash M))
  rw [BitVec.toNat_ofNat]
  omega

/-- Settles O41: the two STARTs announce one size, after which the cores agree in their control, and every step keeps that. -/
theorem invocationStepsDependOnSizeAlone : Obligations.InvocationStepsDependOnSizeAlone := by
  intro s s' t t' M M' n hp hp' len short hh hh' hrun hrun'
  rw [run_succ n s _ (step_start_of_hash hp short hh)] at hrun
  rw [run_succ n s' _ (step_start_of_hash hp' (len ▸ short) hh'), ← len] at hrun'
  have same := (sameControl_beginMessage s s' _ (restOf_sameButByte len)).run n hrun hrun'
  exact ⟨same, same.microOp_eq⟩

end Sys2Proof.Machine
end
